-- ==== Sys2Proof/Word.lean ====
section
/-! DEFINITION. The word types of the engine (00_scope.md R8, R9: unsigned values of a stated width, bit 0 least significant). -/

namespace Sys2Proof

/-- A 32-bit unsigned value: HI, LO, a salt, NUM_BLOCKS, `csr_rdata` (R24, R61, R66). -/
abbrev Word32 := BitVec 32

/-- The 64-bit hash a command carries (R61). -/
abbrev Hash := BitVec 64

/-- One 256-bit block word (R28). -/
abbrev Block := BitVec 256

/-- The 66-bit command word `OP, HASH` (R61). -/
abbrev CmdWord := BitVec 66

/-- The 5-bit response word `ROP, STATUS, MATCH` (R64). -/
abbrev RspWord := BitVec 5

/-- The 2-bit `OP` field of a command (R61). -/
abbrev OpField := BitVec 2

/-- A 4-bit status-port address (R66). -/
abbrev CsrAddr := BitVec 4

end Sys2Proof
end

