-- ==== Sys2Proof/Config.lean ====
section
/-! DEFINITION. The build parameters of the engine (00_scope.md R7), the constants behind State.reset, and the free values. -/

namespace Sys2Proof

/-- R7: a block is 256 bits. -/
abbrev blockBits : Nat := 256

/-- R7: a block is 8 lanes of 32 bits. -/
abbrev lanes : Nat := 8

/-- R7: `SHIFT` of the bit-derivers. -/
abbrev deriverShift : Nat := 27

/-- R89: each salt is odd. -/
def saltsOdd (v : Vector Word32 8) : Bool := v.toList.all fun s => s.getLsbD 0

/-- R89: the eight salts are pairwise distinct. -/
def saltsDistinct (v : Vector Word32 8) : Bool := decide v.toList.Nodup

/-- The parameters fixed when an engine is built (R7, R26, R27, R29). They are no architectural state (R29): a `State` carries
them as the argument R7 asks for, and no step writes them (DESIGN CHOICE, log 1). The proof fields are R7's and R89's
constraints, so that no engine with an illegal salt set, capacity or depth can be built (R89, D32). -/
structure Config where
  /-- `SALT[0..7]`, `SALT[j]` the salt of lane j (R84). -/
  salts : Vector Word32 8
  /-- `MAX_BLOCKS`, 1 .. 2^32-1. -/
  maxBlocks : Word32
  /-- `RSP_DEPTH`, at least 1. -/
  rspDepth : Nat
  salts_odd : saltsOdd salts = true
  salts_distinct : saltsDistinct salts = true
  maxBlocks_pos : 1 ≤ maxBlocks.toNat
  rspDepth_pos : 1 ≤ rspDepth
  deriving DecidableEq, Repr

/-- `SALT[j]`. -/
def Config.salt (c : Config) (j : Fin 8) : Word32 := c.salts[j]

/-- P1: the eight salt words of the chip, which the spec leaves OPEN (log 2). -/
opaque Config.openSalts : Vector Word32 8

/-- P2: `MAX_BLOCKS - 1` of the chip, OPEN (log 2). -/
opaque Config.openCapacity : Fin 4294967295

/-- P3: `RSP_DEPTH - 1` of the chip, OPEN (log 2). -/
opaque Config.openDepth : Nat

/-- An arbitrary legal salt set: the opaque draw where it is legal, and some legal set where it is not, so that nothing but
legality can be proved of it (DESIGN CHOICE, log 2). -/
def Config.someLegalSalts : { v : Vector Word32 8 // saltsOdd v = true ∧ saltsDistinct v = true } :=
  if h : saltsOdd Config.openSalts = true ∧ saltsDistinct Config.openSalts = true then ⟨Config.openSalts, h⟩
  else ⟨#v[1, 3, 5, 7, 9, 11, 13, 15], by decide⟩

/-- The build of the engine that `State.reset` describes: every parameter legal, none with a known value (log 2). -/
def Config.built : Config where
  salts := Config.someLegalSalts.val
  maxBlocks := BitVec.ofNatLT (Config.openCapacity.val + 1) (by omega)
  rspDepth := Config.openDepth + 1
  salts_odd := Config.someLegalSalts.property.1
  salts_distinct := Config.someLegalSalts.property.2
  maxBlocks_pos := by simp
  rspDepth_pos := by omega

/-- P4, R66: what `csr_rdata` reads as while `rst_n = 0`, a fresh free value for each read (DESIGN CHOICE, log 8). -/
opaque Config.resetRdata : Nat → Word32

/-- U3, R72: the host's 64-bit streaming hash `H(seed, bytes)`, total and otherwise unspecified (log 18). -/
opaque Config.keyHash : BitVec 64 → List (BitVec 8) → Hash

end Sys2Proof
end

