-- ==== Sys2Proof/Syntax.lean ====
section
/-! DEFINITION. The instructions of the engine: one constructor per row of spec/opcode_table.json. -/

namespace Sys2Proof

/-- What a host may have the engine do through its two input ports (30_encoding.md R63, R66). -/
inductive Instr where
  /-- `QUERY <hash>` (R105). -/
  | query (hash : Hash)
  /-- `INSERT <hash>` (R100). -/
  | insert (hash : Hash)
  /-- `.cmd 0, <hash>`, reserved (R120). -/
  | reserved00 (hash : Hash)
  /-- `.cmd 3, <hash>`, reserved (R120). -/
  | reserved11 (hash : Hash)
  /-- A read of the status port (R124). -/
  | csrRead (addr : CsrAddr)
  deriving DecidableEq, Repr

end Sys2Proof
end

