-- ==== Sys2Proof/WellFormed.lean ====
section
/-! DEFINITION. What is well-formed: instructions (always, 30_encoding.md R67) and the parameters a build is asked for
(00_scope.md R7, 40_datapath.md R89). -/

namespace Sys2Proof

/-- R67: no value of `HASH` makes a command illegal, and R124 gives every status address a value, so an instruction whose
operands have their widths is well-formed; the types give the widths. -/
def Instr.wf : Instr → Bool
  | .query _ => true
  | .insert _ => true
  | .reserved00 _ => true
  | .reserved11 _ => true
  | .csrRead _ => true

/-- The parameters of an engine as someone asks for them, unchecked (R7). -/
structure RawConfig where
  salts : List Word32
  maxBlocks : Nat
  rspDepth : Nat
  deriving DecidableEq, Repr

/-- R7, R89: eight salts, each odd, pairwise distinct. -/
def RawConfig.saltsLegal (r : RawConfig) : Bool :=
  decide (r.salts.length = 8) && r.salts.all (fun s => s.getLsbD 0) && decide r.salts.Nodup

/-- R7: `MAX_BLOCKS` is 1 .. 2^32-1. -/
def RawConfig.capacityLegal (r : RawConfig) : Bool := decide (1 ≤ r.maxBlocks) && decide (r.maxBlocks < 4294967296)

/-- R7: `RSP_DEPTH` is at least 1. -/
def RawConfig.depthLegal (r : RawConfig) : Bool := decide (1 ≤ r.rspDepth)

/-- All of R7's constraints. -/
def RawConfig.wf (r : RawConfig) : Bool := r.saltsLegal && r.capacityLegal && r.depthLegal

end Sys2Proof
end

