-- ==== Sys2Proof/Decode.lean ====
section
/-! DEFINITION. The encodings of 30_encoding.md: the command word (R61, R63) and the status-port address (R66). Decoding is
total (R67); only a word that fits neither port is rejected, by name. -/

namespace Sys2Proof

/-- What one transfer on an input port carries (R70): a command word or a status-port address. The port is no part of the
bits: the two never mix. -/
inductive Request where
  | command (w : CmdWord)
  | statusRead (a : CsrAddr)
  deriving DecidableEq, Repr

/-- R63: `OP = 0b01`. -/
def opQuery : OpField := 0b01#2

/-- R63: `OP = 0b10`. -/
def opInsert : OpField := 0b10#2

/-- R63, R68: `OP = 0b00`, reserved. -/
def opReserved00 : OpField := 0b00#2

/-- R63, R68: `OP = 0b11`, reserved. -/
def opReserved11 : OpField := 0b11#2

/-- R61: `OP` is bits 65:64. -/
def opField (w : CmdWord) : OpField := w.extractLsb' 64 2

/-- R61: `HASH` is bits 63:0. -/
def hashField (w : CmdWord) : Hash := w.extractLsb' 0 64

/-- R61: the word with fields `OP` and `HASH`. -/
def commandWord (op : OpField) (hash : Hash) : CmdWord := op ++ hash

/-- R67: a command word is decoded by `OP` alone. -/
def decodeCommand (w : CmdWord) : Instr :=
  if opField w = opQuery then .query (hashField w)
  else if opField w = opInsert then .insert (hashField w)
  else if opField w = opReserved00 then .reserved00 (hashField w)
  else .reserved11 (hashField w)

/-- R67, R66: every transfer is exactly one instruction. -/
def decode : Request → Instr
  | .command w => decodeCommand w
  | .statusRead a => .csrRead a

/-- R71: the encoding of an instruction: the 66-bit word `op, hash`, or the 4 address bits. -/
def encode : Instr → Request
  | .query hash => .command (commandWord opQuery hash)
  | .insert hash => .command (commandWord opInsert hash)
  | .reserved00 hash => .command (commandWord opReserved00 hash)
  | .reserved11 hash => .command (commandWord opReserved11 hash)
  | .csrRead addr => .statusRead addr

/-- The rows of spec/opcode_table.json that are command words: mnemonic, mask and match. -/
structure CommandRow where
  mnemonic : String
  mask : CmdWord
  pattern : CmdWord
  deriving DecidableEq, Repr

/-- The four command rows as the table writes them. -/
def commandTable : List CommandRow :=
  [⟨"QUERY", 0x30000000000000000#66, 0x10000000000000000#66⟩,
   ⟨"INSERT", 0x30000000000000000#66, 0x20000000000000000#66⟩,
   ⟨"RESERVED_00", 0x30000000000000000#66, 0x00000000000000000#66⟩,
   ⟨"RESERVED_11", 0x30000000000000000#66, 0x30000000000000000#66⟩]

/-- A word is one of a row's words when its masked bits are the row's match. -/
def CommandRow.covers (r : CommandRow) (w : CmdWord) : Bool := w &&& r.mask == r.pattern

/-- An instruction's mnemonic in spec/opcode_table.json. -/
def Instr.mnemonic : Instr → String
  | .query _ => "QUERY"
  | .insert _ => "INSERT"
  | .reserved00 _ => "RESERVED_00"
  | .reserved11 _ => "RESERVED_11"
  | .csrRead _ => "CSR_READ"

/-- Why a row's bits are no transfer of the engine. -/
inductive DecodeError where
  /-- A command transfer with a bit set above bit 65. -/
  | aboveCommandWord
  /-- A status-port transfer with a bit set above bit 3. -/
  | aboveStatusAddress
  deriving DecidableEq, Repr

/-- The transfer that stands for `nbits` table bits of value `w` (DESIGN CHOICE, log 14): a table row of at most 8 bits is
the status port's, any longer row is a command's, and the padding to whole bytes must be zero. -/
def transferOf (nbits w : Nat) : Except DecodeError Request :=
  if nbits ≤ 8 then
    if w < 16 then .ok (.statusRead (BitVec.ofNat 4 w)) else .error .aboveStatusAddress
  else
    if w < 73786976294838206464 then .ok (.command (BitVec.ofNat 66 w)) else .error .aboveCommandWord

/-- The instruction the decoder reads from an opcode-table row's bits. -/
def decodeTableWord (nbits w : Nat) : Option Instr :=
  match transferOf nbits w with
  | .ok r => some (decode r)
  | .error _ => none

end Sys2Proof
end

