-- ==== Sys2Proof/Machine/State.lean ====
section
/-! DEFINITION. The state of the engine and of the host at its ports (10_state.md R23, 70_reset_and_hazards.md R175), the
reasons a step may stop, and the state after reset (R162). -/

namespace Sys2Proof.Machine

/-- The block memory: (block index, block word) pairs, indexes strictly rising, no word 0; an unlisted word reads 0, its
value after reset (R28). The unit is the 256-bit word, the only access the engine has (R40, R46; DEDUCED, log 4). -/
abbrev Memory := List (Nat × Block)

/-- Whose step happens next, and which (R12, R175). A turn whose step is not enabled passes with no effect (log 5). -/
inductive Turn where
  /-- The engine's accept step (R60). -/
  | accept
  /-- The host takes the head response (R64). -/
  | take
  /-- The host reads the status port at an address (R66). -/
  | readStatus (addr : CsrAddr)
  /-- The host drives `rst_n = 0` (R160). -/
  | holdReset
  /-- The host's reset action: the initialisation of R161 with this `cfg_num_blocks`, after which `rst_n = 1`. -/
  | reset (cfgNumBlocks : Word32)
  deriving DecidableEq, Repr

/-- The host at the engine's ports (R12, R175). -/
structure HostAgent where
  /-- The commands it offers, in order: the head, if any, is on `cmd_word` with `cmd_valid = 1`, and stays there until it is
  accepted (R60). -/
  stream : List CmdWord
  /-- The order of the steps to come, which the spec leaves open (R12; log 5). -/
  turns : List Turn
  /-- The responses it has taken since the last reset action, oldest first: those of the present run (R64, R178; log 9). -/
  taken : List RspWord
  /-- The responses of the runs that reset actions have closed, one list a run, oldest run first (R178; log 9). -/
  earlier : List (List RspWord)
  /-- The status-port reads it has made, oldest first: address and datum (R66). -/
  reads : List (CsrAddr × Word32)
  deriving DecidableEq, Repr

/-- The machine: the architectural state of R23, the acceptance index of R21, the reset input of R70, the build parameters of
R7, the host, and a counter of free values. -/
structure State where
  /-- R7: the build parameters; no step writes them (R26, R29; log 1). -/
  config : Config
  /-- R28: the words `BLK[i]`. -/
  blk : Memory
  /-- R24: `NUM_BLOCKS`. -/
  numBlocks : Word32
  /-- R25: `CFG_ERR`. -/
  cfgErr : Bool
  /-- R27: `RSPQ`, head first. -/
  rspq : List RspWord
  /-- R21: how many commands have been accepted since the last reset (log 12). -/
  acceptIndex : Nat
  /-- R70: the level of `rst_n`; false while the engine is held in reset (log 7). -/
  rstN : Bool
  /-- R175: the host. -/
  host : HostAgent
  /-- The model's own: how many free values of `csr_rdata` have been read (log 8). -/
  freeReads : Nat
  deriving DecidableEq, Repr

/-- The statuses the engine answers with (R65); `0b11` is reserved and never produced. -/
inductive Status where
  | ok
  | illegalOp
  | cfgErr
  deriving DecidableEq, Repr

/-- Why a step stops with a fault. No state that meets `State.Inv` (Safety.lean) raises one. -/
inductive Fault where
  /-- Raised by memRead and memWrite for a block index outside the memory, for which R42 defines no access. Safe: no run
  reaches it (R82; log 10). -/
  | blockIndexOutOfRange (idx : Word32)
  /-- Raised when the host takes a response with STATUS `0b11`, which the engine never produces (R65, P8). Safe (log 11). -/
  | reservedStatus
  deriving DecidableEq, Repr

/-- Why something is refused. No step refuses; an engine or a sizing may be. -/
inductive Refusal where
  /-- Raised by exec for an instruction with no meaning yet; there is none. Safe. -/
  | notModelled (mnemonic : String)
  /-- Raised by elaborate for a salt set that is not eight odd, distinct words (R89, D32). Safe. -/
  | illegalSalts
  /-- Raised by elaborate for a capacity outside 1 .. 2^32-1 (R7). Safe. -/
  | illegalCapacity
  /-- Raised by elaborate for a response-queue depth of 0 (R7). Safe. -/
  | illegalDepth
  /-- Raised by the host's sizing where the block count exceeds 2^32-1 (R167, P12). Safe. -/
  | sizingTooLarge
  deriving DecidableEq, Repr

/-- The host before it does anything (DESIGN CHOICE, log 13). -/
def HostAgent.idle : HostAgent := { stream := [], turns := [], taken := [], earlier := [], reads := [] }

/-- R162: the state after a reset with `cfg_num_blocks = 0`, which is taken as 1 (DESIGN CHOICE 0, log 3), of an engine with
unknown legal parameters (log 2), beside a host that offers nothing yet (log 13). -/
def State.reset : State where
  config := Config.built
  blk := []
  numBlocks := 1#32
  cfgErr := decide (Config.built.maxBlocks.toNat < 1)
  rspq := []
  acceptIndex := 0
  rstN := true
  host := HostAgent.idle
  freeReads := 0

end Sys2Proof.Machine
end

