-- ==== Sys2Proof/Machine/Operands.lean ====
section
/-! DEFINITION. The operands of a command and the datapath both block commands share (30_encoding.md R62, 40_datapath.md
R80 to R87), and the views of a block (20_memory.md R44 to R46). -/

namespace Sys2Proof.Machine

/-- R62: `HI = HASH[63:32]`. -/
def hiOf (hash : Hash) : Word32 := hash.extractLsb' 32 32

/-- R62: `LO = HASH[31:0]`. -/
def loOf (hash : Hash) : Word32 := hash.extractLsb' 0 32

/-- R80: the block-address unit, `(zext_64(HI) * zext_64(NUM_BLOCKS)) >> 32`. -/
def blockIndex (numBlocks hi : Word32) : Word32 :=
  ((hi.setWidth 64 * numBlocks.setWidth 64) >>> 32).setWidth 32

/-- R83: a bit-deriver, `trunc_32(LO * SALT[j]) >> 27`. -/
def bitIndex (salt lo : Word32) : BitVec 5 := ((lo * salt) >>> deriverShift).setWidth 5

/-- R84, R44: bit `b` of lane `j` is bit `32j + b` of the block word. -/
def lanePosition (j : Fin 8) (b : BitVec 5) : Nat := 32 * j.val + b.toNat

/-- R84: the position in a block of the bit that lane `j` derives from `LO`. -/
def derivedPosition (c : Config) (lo : Word32) (j : Fin 8) : Nat := lanePosition j (bitIndex (c.salt j) lo)

/-- R86: `M = OR_j (1 << (32j + b_j))`. -/
def laneMask (c : Config) (lo : Word32) : Block :=
  (List.finRange 8).foldr (fun j m => (1#256 <<< derivedPosition c lo j) ||| m) 0#256

/-- R44: lane `j` of a block word, `B[32j+31:32j]`. -/
def laneOf (b : Block) (j : Fin 8) : Word32 := b.extractLsb' (32 * j.val) 32

/-- R45: 64-bit word `k` of a block word, `B[64k+63:64k]`: a presentation only. -/
def quadOf (b : Block) (k : Fin 4) : BitVec 64 := b.extractLsb' (64 * k.val) 64

/-- R46: byte `m` of a block written out as 32 bytes, `B[8m+7:8m]`: a presentation only. -/
def dumpByte (b : Block) (m : Fin 32) : BitVec 8 := b.extractLsb' (8 * m.val) 8

end Sys2Proof.Machine
end

