-- ==== Sys2Proof/Machine/Flags.lean ====
section
/-! DEFINITION. What a response says (30_encoding.md R64, R65, 60_exceptions.md R144): the engine's only flags (10_state.md
R22). -/

namespace Sys2Proof.Machine

/-- R65: the STATUS codes. -/
def statusCode : Status → BitVec 2
  | .ok => 0b00#2
  | .illegalOp => 0b01#2
  | .cfgErr => 0b10#2

/-- R64: the response word `ROP, STATUS, MATCH`. -/
def responseWord (rop : OpField) (status : Status) (hit : Bool) : RspWord :=
  rop ++ statusCode status ++ BitVec.ofBool hit

/-- R64: `ROP` is bits 4:3. -/
def ropOf (r : RspWord) : OpField := r.extractLsb' 3 2

/-- R64: `STATUS` is bits 2:1. -/
def statusOf (r : RspWord) : BitVec 2 := r.extractLsb' 1 2

/-- R64: `MATCH` is bit 0. -/
def matchOf (r : RspWord) : Bool := r.getLsbD 0

/-- R105: `miss = OR_j (B[32j + b_j] == 0)`, one reduction over the lanes. -/
def misses (c : Config) (lo : Word32) (b : Block) : Bool :=
  (List.finRange 8).any fun j => !b.getLsbD (derivedPosition c lo j)

/-- R105: `MATCH = miss ? 0 : 1`. -/
def matchFlag (c : Config) (lo : Word32) (b : Block) : Bool := !misses c lo b

/-- R144, R64: the responses the engine produces: INSERT and QUERY may be OK, a reserved `OP` may be ILLEGAL_OP, any `OP`
may be CFG_ERR, and only an OK QUERY may carry MATCH. -/
def legalResponse (r : RspWord) : Bool :=
  if statusOf r = statusCode .ok then
    decide (ropOf r = opQuery) || (decide (ropOf r = opInsert) && !matchOf r)
  else if statusOf r = statusCode .illegalOp then
    (decide (ropOf r = opReserved00) || decide (ropOf r = opReserved11)) && !matchOf r
  else decide (statusOf r = statusCode .cfgErr) && !matchOf r

end Sys2Proof.Machine
end

