-- ==== Sys2Proof/Machine/Ops.lean ====
section
/-! DEFINITION. The named operations over the state: the block memory (20_memory.md R42), answering and raising (00_scope.md
R10, 60_exceptions.md R140), the ports (30_encoding.md R60, R64, R66), the turns, and reset (70_reset_and_hazards.md R161). -/

namespace Sys2Proof.Machine

/-! ### The block memory as data -/

/-- R28: a word that is not listed is 0, as reset leaves it. -/
def Memory.read : Memory → Nat → Block
  | [], _ => 0#256
  | (a, v) :: m, i => if i = a then v else Memory.read m i

/-- Replaces word `i` by `v` in a memory in canonical form: a word that becomes 0 is not listed. -/
def Memory.write : Memory → Nat → Block → Memory
  | [], i, v => if v = 0#256 then [] else [(i, v)]
  | (a, w) :: m, i, v =>
    if i < a then (if v = 0#256 then (a, w) :: m else (i, v) :: (a, w) :: m)
    else if i = a then (if v = 0#256 then m else (i, v) :: m)
    else (a, w) :: Memory.write m i v

/-- Canonical from `lo` on: every index is at least `lo`, indexes strictly rise, no listed word is 0. -/
def Memory.wfFrom : Nat → Memory → Bool
  | _, [] => true
  | lo, (a, v) :: m => decide (lo ≤ a) && (v != 0#256) && Memory.wfFrom (a + 1) m

/-- The canonical form of the block memory: equal memories are equal lists. -/
def Memory.wf (m : Memory) : Bool := Memory.wfFrom 0 m

/-! ### Block access (R42, R43) -/

/-- The indexes for which an access is defined: below NUM_BLOCKS (R42) and inside the memory of MAX_BLOCKS words (R28). -/
def accessible (s : State) (idx : Word32) : Bool :=
  decide (idx.toNat < s.numBlocks.toNat) && decide (idx.toNat < s.config.maxBlocks.toNat)

/-- R42: `MemRead(idx, 256)`; outside its domain a fault (log 10). -/
def memRead (s : State) (idx : Word32) : Except Fault Block :=
  if accessible s idx then .ok (Memory.read s.blk idx.toNat) else .error (.blockIndexOutOfRange idx)

/-- `BLK[idx] <- v`. -/
def storeBlock (s : State) (idx : Word32) (v : Block) : State := { s with blk := Memory.write s.blk idx.toNat v }

/-- R42: `MemWrite(idx, 256, v)`; outside its domain a fault (log 10). -/
def memWrite (s : State) (idx : Word32) (v : Block) : Except Fault State :=
  if accessible s idx then .ok (storeBlock s idx v) else .error (.blockIndexOutOfRange idx)

/-! ### Answering, and the errors in place of exceptions (R10, R140) -/

/-- R10, R27: `respond(op, status, match)` appends one response to the tail of RSPQ. -/
def respond (op : OpField) (status : Status) (hit : Bool) (s : State) : State :=
  { s with rspq := s.rspq ++ [responseWord op status hit] }

/-- R140: `raise <Status>` is `respond(OP, <Status>, 0)` and the end of the command: no state is saved, nothing is entered and
nothing is returned from (R146, R147). -/
def raiseStatus (op : OpField) (status : Status) (s : State) : State := respond op status false s

/-- R120, R143: what a command with a reserved `OP` does: CFG_ERR is tested first. -/
def answerReserved (op : OpField) (s : State) : State :=
  if s.cfgErr then raiseStatus op .cfgErr s else raiseStatus op .illegalOp s

/-! ### The ports (R60, R64, R66, R124) -/

/-- R60: `cmd_ready`: out of reset and room in RSPQ (the initialisation is one step, R161; a take at the same edge is a turn
before the accept, log 6). -/
def cmdReady (s : State) : Bool := s.rstN && decide (s.rspq.length < s.config.rspDepth)

/-- R60: `cmd_valid`: the host offers a command. -/
def cmdValid (s : State) : Bool := !s.host.stream.isEmpty

/-- R60: the engine's accept step is enabled: the edge at which `cmd_valid = 1` and `cmd_ready = 1`. -/
def acceptEnabled (s : State) : Bool := cmdReady s && cmdValid s

/-- R64, R160: `rsp_valid`: RSPQ is not empty and the engine is not held in reset. -/
def rspValid (s : State) : Bool := s.rstN && !s.rspq.isEmpty

/-- R175: the host has a response to take and is required to: it still offers a command that it wants accepted. -/
def takeRequired (s : State) : Bool := rspValid s && cmdValid s

/-- R64: `rsp_word`: the head of RSPQ, 0 when it is empty. While `rst_n = 0` and RSPQ is not empty, where `rsp_valid = 0` (R160)
and the spec states no value, it still reads as the head (DESIGN CHOICE, log 21). -/
def rspWord (s : State) : RspWord := s.rspq.headD 0#5

/-- R124: `csr(a)`, a pure function of the state: NUM_BLOCKS, STATUS, CAPACITY, and 0 at every reserved address. -/
def csr (s : State) (a : CsrAddr) : Word32 :=
  if a = 0x0#4 then s.numBlocks
  else if a = 0x1#4 then BitVec.setWidth 32 (BitVec.ofBool s.cfgErr)
  else if a = 0x2#4 then s.config.maxBlocks
  else 0#32

/-- R66: `csr_rdata`: `csr[csr_addr]` out of reset, a free value during reset (P4, log 8). -/
def csrRdata (s : State) (a : CsrAddr) : Word32 := if s.rstN then csr s a else Config.resetRdata s.freeReads

/-- The host receives a status-port datum (log 9). -/
def recordRead (a : CsrAddr) (d : Word32) (s : State) : State :=
  { s with host := { s.host with reads := s.host.reads ++ [(a, d)] } }

/-- The next free value is a new one (log 8). -/
def useFreeRead (s : State) : State := { s with freeReads := s.freeReads + 1 }

/-- R66, R124: a read of the status port. Out of reset no engine state changes. -/
def readPort (a : CsrAddr) (s : State) : State :=
  if s.rstN then recordRead a (csrRdata s a) s else useFreeRead (recordRead a (csrRdata s a) s)

/-! ### Turns (R12, R60, R64, R160) -/

/-- One turn passes. -/
def popTurn (s : State) : State := { s with host := { s.host with turns := s.host.turns.tail } }

/-- The same machine with these turns to come. -/
def withTurns (s : State) (turns : List Turn) : State := { s with host := { s.host with turns := turns } }

/-- R60, R21: the offered command leaves the stream and takes the next acceptance index. -/
def consumeCommand (s : State) : State :=
  { s with acceptIndex := s.acceptIndex + 1, host := { s.host with stream := s.host.stream.tail } }

/-- R60: the command accepted now, with the state in which it is performed; none while nothing is offered or `cmd_ready = 0`. -/
def acceptCommand (s : State) : Option (CmdWord × State) :=
  if cmdReady s then
    match s.host.stream with
    | [] => none
    | w :: _ => some (w, consumeCommand s)
  else none

/-- R64: the head response moves from RSPQ to the host. -/
def moveHead (s : State) : State :=
  { s with rspq := s.rspq.tail, host := { s.host with taken := s.host.taken ++ [rspWord s] } }

/-- R64: the host's take step: nothing while `rsp_valid = 0`; a head with STATUS 0b11 is not of this hardware (P8, log 11). -/
def takeResponse (s : State) : Host.Outcome State Fault Refusal :=
  if rspValid s then
    if statusOf (rspWord s) = 0b11#2 then .fault .reservedStatus else .next (moveHead s)
  else .next s

/-- R160: `rst_n = 0`. The state is lost only by the initialisation that follows (log 7). -/
def enterReset (s : State) : State := { s with rstN := false }

/-! ### Reset (R161) and elaboration (R89, D32) -/

/-- R24, R161 step 1: `(cfg_num_blocks == 0) ? 1 : cfg_num_blocks`. -/
def coerceBlocks (cfgNumBlocks : Word32) : Word32 := if cfgNumBlocks = 0#32 then 1#32 else cfgNumBlocks

/-- R25, R161 step 2: `NUM_BLOCKS > MAX_BLOCKS`. -/
def exceedsCapacity (c : Config) (numBlocks : Word32) : Bool := decide (c.maxBlocks.toNat < numBlocks.toNat)

/-- R161: the whole initialisation, one atomic step; afterwards `rst_n = 1` and the acceptance index is 0 (R162). The build
parameters and the host are no part of it (R26, R29). -/
def resetInit (cfgNumBlocks : Word32) (s : State) : State :=
  { s with
    numBlocks := coerceBlocks cfgNumBlocks
    cfgErr := exceedsCapacity s.config (coerceBlocks cfgNumBlocks)
    blk := []
    rspq := []
    acceptIndex := 0
    rstN := true }

/-- R178: with its reset action the host closes one run and begins the next, whose responses it records apart (log 9). -/
def beginRun (s : State) : State :=
  { s with host := { s.host with taken := [], earlier := s.host.earlier ++ [s.host.taken] } }

/-- An engine of given parameters right after a reset with `cfg_num_blocks`, beside an idle host (R162). -/
def afterReset (c : Config) (cfgNumBlocks : Word32) : State :=
  resetInit cfgNumBlocks { State.reset with config := c }

/-- The eight words of a list that has eight. -/
def saltVector (l : List Word32) (h : l.length = 8) : Vector Word32 8 := ⟨l.toArray, by simp [h]⟩

/-- R89, D32: building an engine: an illegal salt set, capacity or depth is refused (R7), and a legal build is the engine after
its first reset. -/
def elaborate (r : RawConfig) (cfgNumBlocks : Word32) : Host.Outcome State Fault Refusal :=
  if hs : r.saltsLegal = true then
    if hc : r.capacityLegal = true then
      if hd : r.depthLegal = true then
        .next (afterReset
          { salts := saltVector r.salts (by simp [RawConfig.saltsLegal] at hs; exact hs.1.1)
            maxBlocks := BitVec.ofNatLT r.maxBlocks (by simp [RawConfig.capacityLegal] at hc; omega)
            rspDepth := r.rspDepth
            salts_odd := by
              simp [RawConfig.saltsLegal] at hs
              simpa [saltsOdd, saltVector] using hs.1.2
            salts_distinct := by
              simp [RawConfig.saltsLegal] at hs
              exact decide_eq_true hs.2
            maxBlocks_pos := by simp [RawConfig.capacityLegal] at hc; simpa using hc.1
            rspDepth_pos := by simpa [RawConfig.depthLegal] using hd } cfgNumBlocks)
      else .refused .illegalDepth
    else .refused .illegalCapacity
  else .refused .illegalSalts

/-! ### Placing a transfer (log 13) -/

/-- The host is about to make this transfer, before anything else it was going to do. -/
def placeTransfer (s : State) : Request → State
  | .command w => { s with host := { s.host with stream := w :: s.host.stream, turns := .accept :: s.host.turns } }
  | .statusRead a => { s with host := { s.host with turns := .readStatus a :: s.host.turns } }

/-- The transfer of an opcode-table row's bits, placed; bits that are no transfer place nothing. -/
def placeTableWord (s : State) (nbits w : Nat) : State :=
  match transferOf nbits w with
  | .ok r => placeTransfer s r
  | .error _ => s

end Sys2Proof.Machine
end

