-- ==== Sys2Proof/Machine/BlockOps.lean ====
section
/-! DEFINITION. The two commands that touch the block memory: INSERT and QUERY (41_block_ops.md R100, R105). -/

namespace Sys2Proof.Machine

/-- The block index a hash selects (R80). -/
def selectedBlock (s : State) (hash : Hash) : Word32 := blockIndex s.numBlocks (hiOf hash)

/-- R100: set the eight bits of the hash in its block and acknowledge. -/
def execInsert (hash : Hash) (s : State) : Host.Outcome State Fault Refusal :=
  if s.cfgErr then .next (raiseStatus opInsert .cfgErr s)
  else
    match memRead s (selectedBlock s hash) with
    | .error f => .fault f
    | .ok b =>
      match memWrite s (selectedBlock s hash) (b ||| laneMask s.config (loOf hash)) with
      | .error f => .fault f
      | .ok s' => .next (respond opInsert .ok false s')

/-- R105: answer whether the eight bits of the hash are all set in its block. -/
def execQuery (hash : Hash) (s : State) : Host.Outcome State Fault Refusal :=
  if s.cfgErr then .next (raiseStatus opQuery .cfgErr s)
  else
    match memRead s (selectedBlock s hash) with
    | .error f => .fault f
    | .ok b => .next (respond opQuery .ok (matchFlag s.config (loOf hash) b) s)

end Sys2Proof.Machine
end

