-- ==== Sys2Proof/Machine/Control.lean ====
section
/-! DEFINITION. The reserved commands and the status-port read (42_control.md R120, R124). -/

namespace Sys2Proof.Machine

/-- R120: `.cmd 0, <hash>`; HASH is ignored. -/
def execReserved00 (_hash : Hash) (s : State) : Host.Outcome State Fault Refusal := .next (answerReserved opReserved00 s)

/-- R120: `.cmd 3, <hash>`; HASH is ignored. -/
def execReserved11 (_hash : Hash) (s : State) : Host.Outcome State Fault Refusal := .next (answerReserved opReserved11 s)

/-- R124, R66: a read of the status port; it cannot fail and is never held. -/
def execCsrRead (addr : CsrAddr) (s : State) : Host.Outcome State Fault Refusal := .next (readPort addr s)

end Sys2Proof.Machine
end

