-- ==== Sys2Proof/Machine/Dispatch.lean ====
section
/-! DEFINITION. One meaning per instruction. -/

namespace Sys2Proof.Machine

def exec (i : Instr) (s : State) : Host.Outcome State Fault Refusal :=
  match i with
  | .query hash => Sys2Proof.Machine.execQuery hash s
  | .insert hash => Sys2Proof.Machine.execInsert hash s
  | .reserved00 hash => Sys2Proof.Machine.execReserved00 hash s
  | .reserved11 hash => Sys2Proof.Machine.execReserved11 hash s
  | .csrRead addr => Sys2Proof.Machine.execCsrRead addr s

end Sys2Proof.Machine
end

