-- ==== Sys2Proof/Machine/HostSide.lean ====
section
/-! DEFINITION. What the host computes and does outside the engine: the key pseudo-instructions (30_encoding.md R72), the
sizing (70_reset_and_hazards.md R166, R167), the boot order (R169) and the end of a run (R178). No step calls these. -/

namespace Sys2Proof.Machine

/-- R72: `INSERT_KEY <key>` is `INSERT H(seed, bytes(<key>))` (log 18). -/
def insertKey (seed : BitVec 64) (key : List (BitVec 8)) : Instr := .insert (Config.keyHash seed key)

/-- R72: `QUERY_KEY <key>` is `QUERY H(seed, bytes(<key>))` (log 18). -/
def queryKey (seed : BitVec 64) (key : List (BitVec 8)) : Instr := .query (Config.keyHash seed key)

/-- R166: the default `bits_per_key`, for a rate outside (0, 1) or not a number. -/
def defaultBitsPerKey : Nat := 10

/-- R166: `b` is the bits per key of the false-positive rate `p`; none is a rate that is no real number (NaN, D30). The
logarithm is exact (D20; a host's floating point is its own, P7, log 19). -/
def IsBitsPerKey (p : Option ℝ) (b : Nat) : Prop :=
  match p with
  | none => b = defaultBitsPerKey
  | some p =>
    (0 < p ∧ p < 1 → (b : ℤ) = ⌈-Real.log p / Real.log 2 ^ 2⌉) ∧ (¬(0 < p ∧ p < 1) → b = defaultBitsPerKey)

/-- R166: `ceil(n * bits_per_key / 256)`, 1 if that is 0. -/
def sizedBlocks (n bitsPerKey : Nat) : Nat := max 1 ((n * bitsPerKey + 255) / 256)

/-- R167, P12: the sizing as a 32-bit `cfg_num_blocks`; a count above 2^32-1 is refused. -/
def sizing (n bitsPerKey : Nat) : Except Refusal Word32 :=
  if sizedBlocks n bitsPerKey < 4294967296 then .ok (BitVec.ofNat 32 (sizedBlocks n bitsPerKey))
  else .error .sizingTooLarge

/-- R169 steps 2 to 5: hold reset, release it with `cfg_num_blocks`, read STATUS, read NUM_BLOCKS back. -/
def bootTurns (cfgNumBlocks : Word32) : List Turn :=
  [.holdReset, .reset cfgNumBlocks, .readStatus 0x1#4, .readStatus 0x0#4]

/-- R178: a run has ended when every command of the stream is accepted and every response taken. -/
def runEnded (s : State) : Bool := s.host.stream.isEmpty && s.rspq.isEmpty

/-- R178: the block memory as far as a claim about a run may read it: the words below NUM_BLOCKS. -/
def observedBlocks (s : State) : Memory := s.blk.filter fun cell => decide (cell.1 < s.numBlocks.toNat)

/-- R178: the observation of a run that has ended: the responses the host has taken since the reset that began it, and the
final block memory. -/
def observation (s : State) : List RspWord × Memory := (s.host.taken, observedBlocks s)

end Sys2Proof.Machine
end

