-- ==== Sys2Proof/Machine/Step.lean ====
section
/-! DEFINITION. One step of the machine: the next turn (00_scope.md R12). -/

namespace Sys2Proof.Machine

/-- R12, R47: one step. An accepted command is decoded and performed in the step that accepts it (R60); a turn whose step is
not enabled passes; with no turn left the machine is idle and keeps all its state (R154; log 5). -/
def step (s : State) : Host.Outcome State Fault Refusal :=
  match s.host.turns with
  | [] => .next s
  | .accept :: _ =>
    match acceptCommand (popTurn s) with
    | none => .next (popTurn s)
    | some (w, s') => exec (decode (.command w)) s'
  | .take :: _ => takeResponse (popTurn s)
  | .readStatus a :: _ => exec (decode (.statusRead a)) (popTurn s)
  | .holdReset :: _ => .next (enterReset (popTurn s))
  | .reset cfg :: _ => .next (beginRun (resetInit cfg (popTurn s)))

/-- The table row's transfer placed where the very next step makes it (log 13, log 14). -/
def State.withFetchWord (s : State) (nbits w : Nat) : State := placeTableWord s nbits w

end Sys2Proof.Machine
end

