-- ==== Sys2Proof/Safety.lean ====
section
/-! DEFINITION. The terms claims use: the invariant of the state (10_state.md R34 and the rules beside it), reset-free runs,
weak fairness (70_reset_and_hazards.md R177), and what the memory holds after a set of INSERTs (41_block_ops.md R113). -/

namespace Sys2Proof.Machine

/-- What every state a run reaches satisfies. -/
structure State.Inv (s : State) : Prop where
  /-- R24: "the value 0 cannot be held". -/
  numBlocks_ne_zero : s.numBlocks ≠ 0#32
  /-- R25: CFG_ERR says whether NUM_BLOCKS exceeds MAX_BLOCKS. -/
  cfgErr_eq : s.cfgErr = exceedsCapacity s.config s.numBlocks
  /-- The block memory is canonical. -/
  blk_wf : Memory.wf s.blk = true
  /-- R28: words with index >= NUM_BLOCKS are 0. -/
  blk_below : ∀ cell ∈ s.blk, cell.1 < s.numBlocks.toNat
  /-- R141: while CFG_ERR = 1 no word is written. -/
  blk_empty : s.cfgErr = true → s.blk = []
  /-- R27: RSPQ holds at most RSP_DEPTH responses. -/
  rspq_bounded : s.rspq.length ≤ s.config.rspDepth
  /-- R144, R65: every response is one the engine produces. -/
  rspq_legal : ∀ r ∈ s.rspq, legalResponse r = true

/-- A turn that is no reset action. -/
def Turn.isResetFree : Turn → Bool
  | .accept => true
  | .take => true
  | .readStatus _ => true
  | .holdReset => true
  | .reset _ => false

/-- A turn at the command, response or status port, which leaves `rst_n` as it is. -/
def Turn.atPort : Turn → Bool
  | .accept => true
  | .take => true
  | .readStatus _ => true
  | .holdReset => false
  | .reset _ => false

/-- The next `k` steps hold no reset action (R110: "with no reset in between"); what comes later is free. Holding `rst_n = 0`
alone changes no block word. -/
def State.resetFree (s : State) (k : Nat) : Bool := (s.host.turns.take k).all Turn.isResetFree

/-- The turn that is next, if any, is no reset action. -/
def State.nextResetFree (s : State) : Bool := s.host.turns.head?.all Turn.isResetFree

/-- `k` steps from `s` all answer a next state, the last being `t`. -/
def Reaches (s : State) (k : Nat) (t : State) : Prop := Host.Core.run Sys2Proof.core k s = .next t

/-- A run is safe when no step of it faults or refuses. -/
def SafeRun (s : State) : Prop := ∀ k, ∃ t, Reaches s k t

/-- A run without end: at each time the turn that the order gives is taken (R12: any order). -/
def EndlessRun (run : Nat → State) (order : Nat → Turn) : Prop :=
  ∀ n, step (withTurns (run n) [order n]) = .next (run (n + 1))

/-- R177, D21: weak fairness. If the engine's accept step stays enabled it is eventually taken, and if the host's take step
stays enabled while the host is required to take (R175) it is eventually taken. It is the premise of the claims that
something happens, and of no other. -/
structure WeaklyFair (run : Nat → State) (order : Nat → Turn) : Prop where
  accept_taken : ∀ n, (∀ m, n ≤ m → acceptEnabled (run m) = true) → ∃ m, n ≤ m ∧ order m = .accept
  take_taken : ∀ n, (∀ m, n ≤ m → takeRequired (run m) = true) → ∃ m, n ≤ m ∧ order m = .take

/-- R178 asks more of the host than R175 does: it takes every response, also those after its last command. -/
def TakesEveryResponse (run : Nat → State) (order : Nat → Turn) : Prop :=
  ∀ n, (∀ m, n ≤ m → rspValid (run m) = true) → ∃ m, n ≤ m ∧ order m = .take

/-- R80 on integers (R9): `floor(HI * NUM_BLOCKS / 2^32)` of the hash's high half. Claims compare the datapath with this. -/
def specIndex (numBlocks : Word32) (hash : Hash) : Nat := hash.toNat / 2 ^ 32 * numBlocks.toNat / 2 ^ 32

/-- R83 on integers (R9): `floor((LO * SALT[j] mod 2^32) / 2^27)` of the hash's low half. -/
def specBit (c : Config) (hash : Hash) (j : Fin 8) : Nat := hash.toNat % 2 ^ 32 * (c.salt j).toNat % 2 ^ 32 / 2 ^ 27

/-- R112, R113: the OR of the masks of the inserted hashes that select block `i`. -/
def unionMask (c : Config) (numBlocks : Word32) (inserted : List Hash) (i : Nat) : Block :=
  inserted.foldr (fun g m => if (blockIndex numBlocks (hiOf g)).toNat = i then laneMask c (loOf g) ||| m else m) 0#256

/-- R113: the block memory is what exactly the hashes of `inserted` leave in it. -/
def Represents (s : State) (inserted : List Hash) : Prop :=
  ∀ i, Memory.read s.blk i = unionMask s.config s.numBlocks inserted i

/-- The hash of the INSERT that the next step performs, if it performs one (R60, R100, R141). -/
def performedInsert (s : State) : Option Hash :=
  match s.host.turns, s.host.stream with
  | .accept :: _, w :: _ =>
    match decode (.command w) with
    | .insert hash => if cmdReady s && !s.cfgErr then some hash else none
    | .query _ => none
    | .reserved00 _ => none
    | .reserved11 _ => none
    | .csrRead _ => none
  | _, _ => none

/-- The INSERTs of a list of hashes, performed one after another. -/
def insertAll : List Hash → State → Host.Outcome State Fault Refusal
  | [], s => .next s
  | h :: hs, s =>
    match exec (.insert h) s with
    | .next t => insertAll hs t
    | .fault f => .fault f
    | .refused r => .refused r

/-- A QUERY of `hash` answers `OK match=1` (R105). -/
def AnswersMatch (s : State) (hash : Hash) : Prop :=
  ∃ t, exec (.query hash) s = .next t ∧ t.rspq = s.rspq ++ [responseWord opQuery .ok true]

/-- A QUERY of `hash` answers `OK match=0` (R105). -/
def AnswersNoMatch (s : State) (hash : Hash) : Prop :=
  ∃ t, exec (.query hash) s = .next t ∧ t.rspq = s.rspq ++ [responseWord opQuery .ok false]

/-- The turns of a host that takes the `waiting` responses of RSPQ and then each of `offered` commands' response in turn. -/
def drainTurns (waiting offered : Nat) : List Turn :=
  List.replicate waiting .take ++ (List.replicate offered [Turn.accept, Turn.take]).flatten

end Sys2Proof.Machine
end

