-- ==== Sys2Proof/Certificates/Slice0/Obligations.lean ====
section
/-! DEFINITION. The statements about the engine, from the numbered rules of spec/. Where a statement speaks of turns or of the
host's stream, taken and reads, these are how the model holds the order of steps and the host that R12 and R175 speak of (log 5,
log 9): the model's choice, over whose every value the statement is made. -/

open Sys2Proof Sys2Proof.Machine

/-! ### Encoding (30_encoding.md) -/

/-- R61, R63, R66, R71: decoding the encoding of an instruction gives it back, as a transfer and, as log 14 reads a table row's
bits as a transfer (DESIGN CHOICE), as the bits of its opcode-table row, with every operand value. -/
def Obligations.DecodingTheEncodingGivesTheInstructionBack : Prop :=
  ∀ i : Instr, i.wf = true →
    decode (encode i) = i ∧
    (∀ w, encode i = .command w → decodeTableWord 72 w.toNat = some i) ∧
    (∀ a, encode i = .statusRead a → decodeTableWord 8 a.toNat = some i)

/-- Every transfer is the encoding of the instruction it decodes to: no bit of a word is without meaning. -/
def Obligations.EncodingTheDecodingGivesTheTransferBack : Prop :=
  ∀ r : Request, encode (decode r) = r ∧ (decode r).wf = true

/-- R67, R63: a command word is decoded by its bits 65:64 alone, into exactly one of QUERY, INSERT and the two reserved
commands, and its operand is bits 63:0. -/
def Obligations.EveryCommandWordDecodesByItsOpField : Prop :=
  ∀ w : CmdWord,
    (w.toNat / 2 ^ 64 = 0 → decode (.command w) = .reserved00 (BitVec.ofNat 64 w.toNat)) ∧
    (w.toNat / 2 ^ 64 = 1 → decode (.command w) = .query (BitVec.ofNat 64 w.toNat)) ∧
    (w.toNat / 2 ^ 64 = 2 → decode (.command w) = .insert (BitVec.ofNat 64 w.toNat)) ∧
    (w.toNat / 2 ^ 64 = 3 → decode (.command w) = .reserved11 (BitVec.ofNat 64 w.toNat)) ∧
    w.toNat / 2 ^ 64 < 4

/-- opcode_table.json: every command word lies in exactly one command row, the row of the instruction it decodes to. -/
def Obligations.EveryCommandWordLiesInExactlyOneTableRow : Prop :=
  ∀ w : CmdWord, ∃ r ∈ commandTable, r.covers w = true ∧ r.mnemonic = (decode (.command w)).mnemonic ∧
    ∀ r' ∈ commandTable, r'.covers w = true → r' = r

/-- 95_test_vectors.md L2-8: words written out from the encoding decode to the instructions they stand for. -/
def Obligations.WrittenOutWordsDecode : Prop :=
  decode (.command 0x10000000000000000#66) = .query 0x0000000000000000#64 ∧
  decode (.command 0x1FFFFFFFFFFFFFFFF#66) = .query 0xFFFFFFFFFFFFFFFF#64 ∧
  decode (.command 0x24000000080000000#66) = .insert 0x4000000080000000#64 ∧
  decode (.command 0x00123456789ABCDEF#66) = .reserved00 0x0123456789ABCDEF#64 ∧
  decode (.command 0x30000000000000000#66) = .reserved11 0x0000000000000000#64 ∧
  decode (.statusRead 0x2#4) = .csrRead 0x2#4

/-! ### The step -/

/-- R60, R47: a step runs the decoded instruction. On an accept turn with a command offered, the engine out of reset and room
in RSPQ, the step is exec of the decoded word in the state where the turn is past, the command is off the stream and the
acceptance index has advanced; on a status-read turn it is exec of the read in the state where the turn is past. -/
def Obligations.StepRunsTheDecodedInstruction : Prop :=
  (∀ (s : State) w ws ts, s.host.turns = .accept :: ts → s.host.stream = w :: ws → s.rstN = true →
    s.rspq.length < s.config.rspDepth →
    step s = exec (decode (.command w))
      { s with acceptIndex := s.acceptIndex + 1, host := { s.host with stream := ws, turns := ts } }) ∧
  (∀ (s : State) a ts, s.host.turns = .readStatus a :: ts →
    step s = exec (decode (.statusRead a)) { s with host := { s.host with turns := ts } })

/-- The host's interface (the model's choice, log 13, log 14): an opcode-table row's bits that decode to `i`, placed in a state that can accept a command, are run
by the very next step, and nothing but the acceptance index (for a command) differs from exec of `i` in the state itself. -/
def Obligations.PlacedTableWordIsRunByTheNextStep : Prop :=
  ∀ (s : State) (nbits w : Nat) (i : Instr), decodeTableWord nbits w = some i → cmdReady s = true →
    step (s.withFetchWord nbits w) =
      exec i (if nbits ≤ 8 then s else { s with acceptIndex := s.acceptIndex + 1 })

/-- R60, R173, R154: on an accept turn with no command offered, the engine held in reset, or RSPQ full, no command is accepted:
the turn passes and everything else, the offered commands included, is as before. With no turn left nothing changes. -/
def Obligations.NothingIsAcceptedUnlessOfferedAndReady : Prop :=
  (∀ (s : State) ts, s.host.turns = .accept :: ts →
    s.host.stream = [] ∨ s.rstN = false ∨ s.config.rspDepth ≤ s.rspq.length →
    step s = .next { s with host := { s.host with turns := ts } }) ∧
  (∀ s : State, s.host.turns = [] → step s = .next s)

/-- R64, R27: out of reset rsp_valid is 1 exactly when RSPQ is not empty, and rsp_word is its head, 0 when it is empty
(so in the model also while held in reset with responses queued, where the spec states no rsp_word: DESIGN CHOICE, log 21). The
host's take step removes the head and delivers it, and leaves everything else; with RSPQ empty it does nothing. A head with STATUS
0b11 is not of this hardware (R65): there it stops (P8; DEDUCED, log 11), and no state of the invariant queues one. -/
def Obligations.TakeStepDeliversTheHeadResponse : Prop :=
  (∀ s : State, s.rstN = true → (rspValid s = true ↔ s.rspq ≠ [])) ∧
  (∀ s : State, (s.rspq = [] → rspWord s = 0#5) ∧ ∀ r rs, s.rspq = r :: rs → rspWord s = r) ∧
  (∀ (s : State) ts, s.rstN = true → s.host.turns = .take :: ts →
    (∀ r rs, s.rspq = r :: rs → r.toNat / 2 % 4 ≠ 3 →
      step s = .next { s with rspq := rs, host := { s.host with turns := ts, taken := s.host.taken ++ [r] } }) ∧
    (∀ r rs, s.rspq = r :: rs → r.toNat / 2 % 4 = 3 → step s = .fault .reservedStatus) ∧
    (s.rspq = [] → step s = .next { s with host := { s.host with turns := ts } })) ∧
  (∀ s : State, s.Inv → ∀ r ∈ s.rspq, r.toNat / 2 % 4 ≠ 3)

/-- R47, R27, R21: outside a reset action, a step either leaves the sequence of responses taken and still queued, and the
acceptance index, as they are, or performs one command: it appends that command's one response, whose ROP is the command's OP,
and advances the index by 1. So responses leave in acceptance order, one per command. -/
def Obligations.OneResponsePerCommandInAcceptanceOrder : Prop :=
  ∀ s t : State, s.nextResetFree = true → step s = .next t →
    (t.host.taken ++ t.rspq = s.host.taken ++ s.rspq ∧ t.acceptIndex = s.acceptIndex ∧ t.host.stream = s.host.stream) ∨
    (∃ w ts r, s.host.turns = .accept :: ts ∧ s.host.stream = w :: t.host.stream ∧
      t.host.taken = s.host.taken ∧ t.rspq = s.rspq ++ [r] ∧ r.toNat / 8 = w.toNat / 2 ^ 64 ∧
      t.acceptIndex = s.acceptIndex + 1)

/-- R140, R146: from every state of the invariant a step answers a next state, so no run stops: every outcome of a command is a
response. -/
def Obligations.EveryRunIsSafe : Prop :=
  (∀ s : State, s.Inv → ∃ t, step s = .next t) ∧ (∀ s : State, s.Inv → SafeRun s)

/-- Every step keeps the invariant: NUM_BLOCKS is not 0 (R24), CFG_ERR says whether it exceeds MAX_BLOCKS (R25), the block
memory is canonical and lists no word at or above NUM_BLOCKS (R28), and none in configuration error (R141), RSPQ is within
RSP_DEPTH (R27), and every queued response is one the engine produces (R144). -/
def Obligations.EveryStepKeepsTheInvariant : Prop :=
  ∀ s t : State, s.Inv → step s = .next t → t.Inv

/-- The invariant holds right after reset, of State.reset and of every build and every `cfg_num_blocks`. -/
def Obligations.InvariantHoldsAfterReset : Prop :=
  State.reset.Inv ∧ ∀ (c : Config) (cfg : Word32), (afterReset c cfg).Inv

/-- R34: between two resets a bit of a block word changes only from 0 to 1, and only by an INSERT; NUM_BLOCKS, CFG_ERR and
CAPACITY do not change. -/
def Obligations.BlockBitsOnlyRiseBetweenResets : Prop :=
  ∀ s t : State, s.Inv → s.nextResetFree = true → step s = .next t →
    (∀ i k, (Memory.read s.blk i).getLsbD k = true → (Memory.read t.blk i).getLsbD k = true) ∧
    (∀ i, Memory.read t.blk i ≠ Memory.read s.blk i → ∃ hash, performedInsert s = some hash) ∧
    t.numBlocks = s.numBlocks ∧ t.cfgErr = s.cfgErr ∧ csr t 0x2#4 = csr s 0x2#4

/-- R26, R29: no step, a reset action included, changes a salt, MAX_BLOCKS or RSP_DEPTH. -/
def Obligations.NoStepChangesTheBuild : Prop :=
  ∀ s t : State, step s = .next t → t.config = s.config

/-! ### The datapath (40_datapath.md) -/

/-- R80: `idx = (zext_64(HI) * zext_64(NUM_BLOCKS)) >> 32` on exact integers; the unit reads HI and NUM_BLOCKS only. -/
def Obligations.BlockIndexIsTheMultiplyHigh : Prop :=
  ∀ (numBlocks : Word32) (hash : Hash),
    (blockIndex numBlocks (hiOf hash)).toNat = specIndex numBlocks hash ∧
    (∀ hash' : Hash, hash'.toNat / 2 ^ 32 = hash.toNat / 2 ^ 32 →
      blockIndex numBlocks (hiOf hash') = blockIndex numBlocks (hiOf hash))

/-- R82, R81: the block index is in range, and its consequences: one block takes every hash, `HI = 0` selects block 0,
`HI = 0xFFFFFFFF` the last block, and the index does not decrease with HI; the product fits 64 bits. -/
def Obligations.BlockIndexIsAlwaysInRange : Prop :=
  ∀ (numBlocks hi : Word32), numBlocks ≠ 0#32 →
    (blockIndex numBlocks hi).toNat ≤ numBlocks.toNat - 1 ∧
    (numBlocks = 1#32 → blockIndex numBlocks hi = 0#32) ∧
    blockIndex numBlocks 0#32 = 0#32 ∧
    blockIndex numBlocks 0xFFFFFFFF#32 = numBlocks - 1#32 ∧
    (∀ hi' : Word32, hi.toNat ≤ hi'.toNat → (blockIndex numBlocks hi).toNat ≤ (blockIndex numBlocks hi').toNat) ∧
    hi.toNat * numBlocks.toNat < 2 ^ 64

/-- R88: for every NUM_BLOCKS = N and block i < N, the number of values of HI that select block i is
`ceil((i+1) * 2^32 / N) - ceil(i * 2^32 / N)`, which is `floor(2^32 / N)` or `ceil(2^32 / N)`. -/
def Obligations.BlockIndexIsUniform : Prop :=
  ∀ (numBlocks : Word32) (i : Nat), i < numBlocks.toNat →
    ((Finset.range (2 ^ 32)).filter fun h => (blockIndex numBlocks (BitVec.ofNat 32 h)).toNat = i).card =
      ((i + 1) * 2 ^ 32 + numBlocks.toNat - 1) / numBlocks.toNat - (i * 2 ^ 32 + numBlocks.toNat - 1) / numBlocks.toNat ∧
    (((Finset.range (2 ^ 32)).filter fun h => (blockIndex numBlocks (BitVec.ofNat 32 h)).toNat = i).card =
        2 ^ 32 / numBlocks.toNat ∨
     ((Finset.range (2 ^ 32)).filter fun h => (blockIndex numBlocks (BitVec.ofNat 32 h)).toNat = i).card =
        (2 ^ 32 + numBlocks.toNat - 1) / numBlocks.toNat)

/-- R83: `b_j = trunc_32(LO * SALT[j]) >> 27` on integers, and the rule's example: `LO = 0x80000000` gives 16. -/
def Obligations.BitIndexIsTheTopFiveBitsOfTheProduct : Prop :=
  ∀ (c : Config) (hash : Hash) (j : Fin 8),
    (bitIndex (c.salt j) (loOf hash)).toNat = specBit c hash j ∧ specBit c hash j < 32 ∧
    (hash.toNat % 2 ^ 32 = 0x80000000 → specBit c hash j = 16)

/-- R89 (1): multiplying by a salt is a bijection of the 32-bit values, and each bit index takes each value 0..31 for exactly
2^27 values of LO. -/
def Obligations.EachDeriverIsUniform : Prop :=
  ∀ (c : Config) (j : Fin 8),
    Function.Bijective (fun lo : Word32 => lo * c.salt j) ∧
    ∀ b : BitVec 5,
      ((Finset.range (2 ^ 32)).filter fun lo => bitIndex (c.salt j) (BitVec.ofNat 32 lo) = b).card = 2 ^ 27

/-- R89 (2) to (5): the bit indexes of `LO` = 0, 0x80000000, 0x40000000 and 1. -/
def Obligations.DeriverValuesAtSpecialInputs : Prop :=
  ∀ (c : Config) (j : Fin 8),
    bitIndex (c.salt j) 0#32 = 0#5 ∧
    bitIndex (c.salt j) 0x80000000#32 = 16#5 ∧
    ((c.salt j).toNat % 4 = 1 → bitIndex (c.salt j) 0x40000000#32 = 8#5) ∧
    ((c.salt j).toNat % 4 = 3 → bitIndex (c.salt j) 0x40000000#32 = 24#5) ∧
    ((c.salt j).toNat % 4 = 1 ∨ (c.salt j).toNat % 4 = 3) ∧
    (bitIndex (c.salt j) 1#32).toNat = (c.salt j).toNat / 2 ^ 27

/-- R86: the lane mask has exactly eight bits set, one in each lane: lane j of M is `1 << b_j`; and the rule's example, `LO = 0`. -/
def Obligations.LaneMaskHasOneBitInEachLane : Prop :=
  ∀ (c : Config) (hash : Hash),
    (∀ j : Fin 8, laneOf (laneMask c (loOf hash)) j = 1#32 <<< specBit c hash j) ∧
    (∀ (j : Fin 8) (b : Nat), b < 32 →
      (laneMask c (loOf hash)).getLsbD (32 * j.val + b) = decide (b = specBit c hash j)) ∧
    ((List.range 256).countP fun k => (laneMask c (loOf hash)).getLsbD k) = 8 ∧
    (hash.toNat % 2 ^ 32 = 0 → laneMask c (loOf hash) =
      0x0000000100000001000000010000000100000001000000010000000100000001#256)

/-- R87: the set and the test, lane by lane: no lane reads another, and the lanes meet only in the AND of the query. -/
def Obligations.SetAndTestWorkLaneByLane : Prop :=
  ∀ (c : Config) (hash : Hash) (b : Block),
    (∀ j : Fin 8, laneOf (laneMask c (loOf hash)) j = 1#32 <<< specBit c hash j) ∧
    (∀ j : Fin 8, laneOf (b ||| laneMask c (loOf hash)) j = laneOf b j ||| 1#32 <<< specBit c hash j) ∧
    (matchFlag c (loOf hash) b = true ↔ ∀ j : Fin 8, laneOf b j &&& 1#32 <<< specBit c hash j ≠ 0#32)

/-- R44, R45, R46: lane j, bit b is bit 32j + b; 64-bit word k is lane 2k+1 above lane 2k; dump byte m is bits 8m+7..8m. -/
def Obligations.BlockViewsAgree : Prop :=
  ∀ b : Block,
    (∀ (j : Fin 8) (k : Nat), k < 32 → (laneOf b j).getLsbD k = b.getLsbD (32 * j.val + k)) ∧
    (∀ (k : Fin 4) (lo hi : Fin 8), lo.val = 2 * k.val → hi.val = 2 * k.val + 1 →
      quadOf b k = laneOf b hi ++ laneOf b lo) ∧
    (∀ (m : Fin 32) (k : Nat), k < 8 → (dumpByte b m).getLsbD k = b.getLsbD (8 * m.val + k))

/-- Canonical memories that read alike are equal. -/
def Obligations.MemoriesThatReadAlikeAreEqual : Prop :=
  ∀ m m' : Memory, Memory.wf m = true → Memory.wf m' = true →
    (∀ i, Memory.read m i = Memory.read m' i) → m = m'

/-! ### INSERT and QUERY (41_block_ops.md) -/

/-- R100: INSERT is encoded with OP 0b10 and completes from every state of the invariant. With CFG_ERR = 1 it only answers CFG_ERR. Otherwise it answers OK
with MATCH 0, sets the hash's bit in each lane of the block its index names, clears no bit, and touches no other block word and
no other state; where the eight bits are set already it changes no block word. -/
def Obligations.InsertSetsItsEightBitsAndNothingElse : Prop :=
  ∀ (s : State) (hash : Hash), s.Inv →
    encode (.insert hash) = .command (0b10#2 ++ hash) ∧
    (s.cfgErr = true → exec (.insert hash) s = .next { s with rspq := s.rspq ++ [0b10100#5] }) ∧
    (s.cfgErr = false → ∃ blk, exec (.insert hash) s = .next { s with blk := blk, rspq := s.rspq ++ [0b10000#5] } ∧
      (selectedBlock s hash).toNat = specIndex s.numBlocks hash ∧
      (∀ i, i ≠ (selectedBlock s hash).toNat → Memory.read blk i = Memory.read s.blk i) ∧
      (∀ (j : Fin 8) (b : Nat), b < 32 →
        (Memory.read blk (selectedBlock s hash).toNat).getLsbD (32 * j.val + b) =
          ((Memory.read s.blk (selectedBlock s hash).toNat).getLsbD (32 * j.val + b) || decide (b = specBit s.config hash j))) ∧
      ((∀ j : Fin 8,
          (Memory.read s.blk (selectedBlock s hash).toNat).getLsbD (32 * j.val + specBit s.config hash j) = true) →
        blk = s.blk))

/-- R105: QUERY is encoded with OP 0b01 and completes from every state of the invariant and writes no state but RSPQ. With CFG_ERR = 1 it answers CFG_ERR,
MATCH 0. Otherwise it answers OK with MATCH 1 exactly when all eight bits of the hash are set in its block, that is when
`(B & M) == M`. -/
def Obligations.QueryAnswersWhetherAllEightBitsAreSet : Prop :=
  ∀ (s : State) (hash : Hash), s.Inv →
    encode (.query hash) = .command (0b01#2 ++ hash) ∧
    (s.cfgErr = true → exec (.query hash) s = .next { s with rspq := s.rspq ++ [0b01100#5] }) ∧
    (s.cfgErr = false → ∃ hit : Bool,
      exec (.query hash) s = .next { s with rspq := s.rspq ++ [if hit then 0b01001#5 else 0b01000#5] } ∧
      (hit = true ↔ ∀ j : Fin 8,
        (Memory.read s.blk (specIndex s.numBlocks hash)).getLsbD (32 * j.val + specBit s.config hash j) = true) ∧
      (hit = true ↔
        Memory.read s.blk (specIndex s.numBlocks hash) &&& laneMask s.config (loOf hash) = laneMask s.config (loOf hash)))

/-- R105's corner cases and R162: right after a reset that sets no CFG_ERR every QUERY answers match 0; where every bit of the
selected block is set, match 1. -/
def Obligations.EmptyFilterMissesAndSaturatedBlockHits : Prop :=
  (∀ (c : Config) (cfg : Word32) (hash : Hash), (afterReset c cfg).cfgErr = false →
    AnswersNoMatch (afterReset c cfg) hash) ∧
  (∀ (s : State) (hash : Hash), s.Inv → s.cfgErr = false →
    Memory.read s.blk (specIndex s.numBlocks hash) = BitVec.allOnes 256 → AnswersMatch s hash)

/-- R110: after an INSERT h is performed, every later QUERY h with no reset in between, whatever comes after it, answers
`OK match=1`. -/
def Obligations.NoFalseNegatives : Prop :=
  ∀ (s t u : State) (hash : Hash) (k : Nat), s.Inv → performedInsert s = some hash → step s = .next t →
    t.resetFree k = true → Reaches t k u → AnswersMatch u hash

/-- R111: the set of hashes for which a QUERY would answer match 1 never shrinks between resets. -/
def Obligations.MatchesNeverShrinkBetweenResets : Prop :=
  ∀ (s t : State) (hash : Hash) (k : Nat), s.Inv → s.resetFree k = true → Reaches s k t →
    AnswersMatch s hash → AnswersMatch t hash

/-- R112: the block memory after a sequence of INSERTs is, word by word, what was there OR-ed with the masks of the inserted
hashes that select that word, so it depends neither on their order nor on how often each was inserted. -/
def Obligations.InsertsCommuteAndAreIdempotent : Prop :=
  ∀ (s : State) (hs hs' : List Hash), s.Inv → s.cfgErr = false → (∀ h, h ∈ hs ↔ h ∈ hs') →
    ∃ t t', insertAll hs s = .next t ∧ insertAll hs' s = .next t' ∧ t.blk = t'.blk ∧
      ∀ i, Memory.read t.blk i = Memory.read s.blk i ||| unionMask s.config s.numBlocks hs i

/-- R113: the closed form of a QUERY. A reset leaves the memory of no hash; every step leaves that of the hashes inserted so
far, with the hash of the INSERT it performs added; and in a memory of the hashes S a QUERY h answers match 1 exactly when every
bit of h is set by some hash of S that selects the same block. -/
def Obligations.QueryHasTheClosedFormOfTheInsertedHashes : Prop :=
  (∀ (s t : State) cfg ts, s.host.turns = .reset cfg :: ts → step s = .next t → Represents t []) ∧
  (∀ (s t : State) (inserted : List Hash), s.Inv → Represents s inserted → s.nextResetFree = true → step s = .next t →
    Represents t ((performedInsert s).toList ++ inserted)) ∧
  (∀ (s : State) (inserted : List Hash) (hash : Hash), s.Inv → Represents s inserted → s.cfgErr = false →
    (AnswersMatch s hash ↔ ∀ j : Fin 8, ∃ g ∈ inserted,
      specIndex s.numBlocks g = specIndex s.numBlocks hash ∧ specBit s.config g j = specBit s.config hash j) ∧
    (AnswersMatch s hash ↔ laneMask s.config (loOf hash) &&&
      ~~~unionMask s.config s.numBlocks inserted (specIndex s.numBlocks hash) = 0#256))

/-- R48: a step that performs no INSERT and no reset leaves every block word and the answer to every QUERY, a QUERY among them; and a
second INSERT of the same hash leaves every block word unchanged. -/
def Obligations.QueryHasNoSideEffectAndInsertIsIdempotent : Prop :=
  (∀ s t : State, s.nextResetFree = true → performedInsert s = none → step s = .next t →
    t.blk = s.blk ∧ ∀ hash, (AnswersMatch t hash ↔ AnswersMatch s hash) ∧ (AnswersNoMatch t hash ↔ AnswersNoMatch s hash)) ∧
  (∀ (s t : State) (hash : Hash), exec (.query hash) s = .next t → t.blk = s.blk) ∧
  (∀ (s : State) (hash : Hash), s.Inv → ∃ t u, exec (.insert hash) s = .next t ∧ exec (.insert hash) t = .next u ∧ u.blk = t.blk)

/-- R114, R90: a command's effect depends on one block word: two states that agree on the build, NUM_BLOCKS, CFG_ERR and the
selected word give a QUERY the same response and an INSERT the same new word. -/
def Obligations.CommandsReadOneBlockWordOnly : Prop :=
  ∀ (s s' : State) (hash : Hash), s.Inv → s'.Inv → s'.config = s.config → s'.numBlocks = s.numBlocks → s'.cfgErr = s.cfgErr →
    Memory.read s'.blk (specIndex s.numBlocks hash) = Memory.read s.blk (specIndex s.numBlocks hash) →
    ∃ r t t' u u', exec (.query hash) s = .next t ∧ exec (.query hash) s' = .next t' ∧
      t.rspq = s.rspq ++ [r] ∧ t'.rspq = s'.rspq ++ [r] ∧
      exec (.insert hash) s = .next u ∧ exec (.insert hash) s' = .next u' ∧
      Memory.read u'.blk (specIndex s.numBlocks hash) = Memory.read u.blk (specIndex s.numBlocks hash)

/-- R72 with R110: a key inserted with a seed is found by a query of the same key with the same seed, whatever the hash. -/
def Obligations.InsertedKeyIsFound : Prop :=
  ∀ (s : State) (seed : BitVec 64) (key : List (BitVec 8)), s.Inv → s.cfgErr = false →
    ∃ t u, exec (insertKey seed key) s = .next t ∧ exec (queryKey seed key) t = .next u ∧
      u.rspq = t.rspq ++ [responseWord opQuery .ok true]

/-! ### Reserved commands, errors and responses (42_control.md, 60_exceptions.md) -/

/-- R120: a reserved command completes in every state: it answers ILLEGAL_OP, or CFG_ERR if CFG_ERR = 1, with ROP its own OP and
MATCH 0, whatever its HASH, and changes nothing but RSPQ; accepted, it takes one place in RSPQ and one acceptance index. -/
def Obligations.ReservedCommandsAnswerIllegalOp : Prop :=
  (∀ (s : State) (hash : Hash),
    exec (.reserved00 hash) s = .next { s with rspq := s.rspq ++ [if s.cfgErr then 0b00100#5 else 0b00010#5] } ∧
    exec (.reserved11 hash) s = .next { s with rspq := s.rspq ++ [if s.cfgErr then 0b11100#5 else 0b11010#5] }) ∧
  (∀ (s : State) (w : CmdWord) ws ts, s.host.turns = .accept :: ts → s.host.stream = w :: ws → cmdReady s = true →
    w.toNat / 2 ^ 64 = 0 ∨ w.toNat / 2 ^ 64 = 3 →
    ∃ r, step s = .next { s with
      rspq := s.rspq ++ [r], acceptIndex := s.acceptIndex + 1, host := { s.host with stream := ws, turns := ts } })

/-- R141: with CFG_ERR = 1 every command, whatever its OP, is answered CFG_ERR with MATCH 0 and ROP = OP and touches nothing but
RSPQ; CFG_ERR changes only by a reset, to whether its coerced count exceeds MAX_BLOCKS. -/
def Obligations.ConfigurationErrorAnswersEveryCommand : Prop :=
  (∀ (s : State) (w : CmdWord), s.cfgErr = true →
    ∃ r : RspWord, exec (decode (.command w)) s = .next { s with rspq := s.rspq ++ [r] } ∧ r.toNat = w.toNat / 2 ^ 64 * 8 + 4) ∧
  (∀ s t : State, step s = .next t → t.cfgErr ≠ s.cfgErr →
    ∃ cfg ts, s.host.turns = .reset cfg :: ts ∧
      (t.cfgErr = true ↔ s.config.maxBlocks.toNat < (if cfg.toNat = 0 then 1 else cfg.toNat)))

/-- R143, R142, R144: every command gets exactly one status: CFG_ERR if CFG_ERR = 1, else ILLEGAL_OP for a reserved OP, else OK;
a status that is not OK comes with MATCH 0 and no other effect. -/
def Obligations.EachCommandGetsOneStatusByPriority : Prop :=
  ∀ (s : State) (w : CmdWord), s.Inv →
    ∃ t r, exec (decode (.command w)) s = .next t ∧ t.rspq = s.rspq ++ [r] ∧ r.toNat / 8 = w.toNat / 2 ^ 64 ∧
      r.toNat / 2 % 4 = (if s.cfgErr then 2 else if w.toNat / 2 ^ 64 = 1 ∨ w.toNat / 2 ^ 64 = 2 then 0 else 1) ∧
      (r.toNat / 2 % 4 ≠ 0 → r.toNat % 2 = 0 ∧ t = { s with rspq := s.rspq ++ [r] })

/-- R64, R65, R144: the fields of a response word, and the nine words the engine produces; status 0b11 is in none of them. -/
def Obligations.ProducedResponsesAreTheCauseTable : Prop :=
  (∀ (rop : OpField) (st : Status) (hit : Bool),
    ropOf (responseWord rop st hit) = rop ∧ statusOf (responseWord rop st hit) = statusCode st ∧
    matchOf (responseWord rop st hit) = hit) ∧
  (∀ r : RspWord, legalResponse r = true ↔
    r ∈ [0x08#5, 0x09#5, 0x10#5, 0x02#5, 0x1A#5, 0x04#5, 0x0C#5, 0x14#5, 0x1C#5])

/-! ### The status port (42_control.md R124) -/

/-- R124: out of reset a status read completes in every state, delivers NUM_BLOCKS at 0x0, CFG_ERR in bit 0 and zeros above it at
0x1, MAX_BLOCKS at 0x2 and 0 at 0x3..0xF, and changes nothing in the engine, RSPQ included. -/
def Obligations.StatusReadDeliversTheMapAndChangesNothing : Prop :=
  ∀ (s : State) (a : CsrAddr), s.rstN = true →
    ∃ d : Word32, exec (.csrRead a) s = .next { s with host := { s.host with reads := s.host.reads ++ [(a, d)] } } ∧
      (a.toNat = 0 → d = s.numBlocks) ∧
      (a.toNat = 1 → d.toNat = if s.cfgErr then 1 else 0) ∧
      (a.toNat = 2 → d = s.config.maxBlocks) ∧
      (3 ≤ a.toNat → d = 0#32)

/-- R66, P4, log 8: while the engine is held in reset a status read completes too, with a datum the spec leaves open, and changes no
engine state. -/
def Obligations.StatusReadDuringResetDeliversSomeValue : Prop :=
  ∀ (s : State) (a : CsrAddr), s.rstN = false →
    ∃ d : Word32, exec (.csrRead a) s = .next
      { s with host := { s.host with reads := s.host.reads ++ [(a, d)] }, freeReads := s.freeReads + 1 }

/-! ### Reset, boot and the host (70_reset_and_hazards.md) -/

/-- R161, R162: the reset action: NUM_BLOCKS is cfg_num_blocks with 0 taken as 1, CFG_ERR says whether that exceeds MAX_BLOCKS, every
block word is 0, RSPQ is empty, the acceptance index is 0 and commands are accepted again; the build stays (R26, R29). The model's choices: the turn has passed
(log 5), the counter of free values stays (log 8), and the host's record of the run is closed (log 9). -/
def Obligations.ResetBuildsAnEmptyFilter : Prop :=
  ∀ (s : State) (cfg : Word32) ts, s.host.turns = .reset cfg :: ts →
    ∃ t, step s = .next t ∧
      t.numBlocks.toNat = (if cfg.toNat = 0 then 1 else cfg.toNat) ∧
      (t.cfgErr = true ↔ s.config.maxBlocks.toNat < t.numBlocks.toNat) ∧
      (∀ i, Memory.read t.blk i = 0#256) ∧ t.rspq = [] ∧ t.acceptIndex = 0 ∧ cmdReady t = true ∧
      t.config = s.config ∧ t.freeReads = s.freeReads ∧
      t.host = { s.host with turns := ts, taken := [], earlier := s.host.earlier ++ [s.host.taken] }

/-- R163, P5: a reset makes what was in flight unobservable: two engines of one build beside one host that differ in anything else
are the same machine after the reset action. -/
def Obligations.ResetForgetsWhatWasInFlight : Prop :=
  ∀ (s s' : State) (cfg : Word32) ts, s.host.turns = .reset cfg :: ts → s'.config = s.config → s'.host = s.host →
    s'.freeReads = s.freeReads → step s' = step s

/-- R160 (the held phase is the model's, log 7): with `rst_n = 0` cmd_ready and rsp_valid are 0, and a step other than the reset
action accepts no command, delivers no response and changes no engine state. -/
def Obligations.HeldInResetNothingIsAcceptedOrPresented : Prop :=
  (∀ (s : State) ts, s.host.turns = .holdReset :: ts →
    step s = .next { s with rstN := false, host := { s.host with turns := ts } }) ∧
  (∀ s : State, s.rstN = false → cmdReady s = false ∧ rspValid s = false) ∧
  (∀ s t : State, s.rstN = false → s.nextResetFree = true → step s = .next t →
    t = { s with host := { s.host with turns := s.host.turns.tail, reads := t.host.reads }, freeReads := t.freeReads })

/-- R169: after the boot turns the host has read whether CFG_ERR is set and NUM_BLOCKS back, and commands are accepted. -/
def Obligations.BootReadsBackTheConfiguration : Prop :=
  ∀ (s : State) (cfg : Word32) ts, s.host.turns = bootTurns cfg ++ ts →
    ∃ t, Reaches s 4 t ∧ cmdReady t = true ∧ t.host.turns = ts ∧
      t.host.reads = s.host.reads ++
        [(0x1#4, if s.config.maxBlocks.toNat < (if cfg.toNat = 0 then 1 else cfg.toNat) then 1#32 else 0#32),
         (0x0#4, if cfg = 0#32 then 1#32 else cfg)]

/-- R173, R178: a host that keeps taking responses gets every command it offers accepted and answered: with turns that first
drain RSPQ and then accept and take in turn, the run ends after those turns, one response per command. -/
def Obligations.DrainingHostHasEveryCommandAnswered : Prop :=
  ∀ s : State, s.Inv → s.rstN = true → s.host.turns = drainTurns s.rspq.length s.host.stream.length →
    ∃ t, Reaches s (s.rspq.length + 2 * s.host.stream.length) t ∧ runEnded t = true ∧ t.host.turns = [] ∧
      t.acceptIndex = s.acceptIndex + s.host.stream.length ∧
      t.host.taken.length = s.host.taken.length + s.rspq.length + s.host.stream.length

/-- R89, R7, D32: building an engine checks its parameters: an illegal salt set, capacity or depth is refused by name, and a legal
build is the engine with exactly those parameters, odd and distinct salts, right after reset. -/
def Obligations.IllegalBuildsAreRefused : Prop :=
  (∀ (r : RawConfig) (cfg : Word32),
    (r.saltsLegal = false → elaborate r cfg = .refused .illegalSalts) ∧
    (r.saltsLegal = true → r.capacityLegal = false → elaborate r cfg = .refused .illegalCapacity) ∧
    (r.saltsLegal = true → r.capacityLegal = true → r.depthLegal = false → elaborate r cfg = .refused .illegalDepth) ∧
    (r.wf = true → ∃ c : Config, elaborate r cfg = .next (afterReset c cfg) ∧ c.salts.toList = r.salts ∧
      c.maxBlocks.toNat = r.maxBlocks ∧ c.rspDepth = r.rspDepth)) ∧
  (∀ (c : Config) (j k : Fin 8), (c.salt j).toNat % 2 = 1 ∧ (j ≠ k → c.salt j ≠ c.salt k))

/-- R166, R167, P12: the sizing is at least 1, is the exact rational ceiling of `n * bits_per_key / 256` otherwise, and is a 32-bit
count exactly while that is at most 2^32-1 (for 10 bits per key, n <= 109951162752); a larger count is refused. -/
def Obligations.SizingIsTheCeilingAndNeverZero : Prop :=
  (∀ n b : Nat, 1 ≤ sizedBlocks n b ∧ n * b ≤ 256 * sizedBlocks n b ∧
    (sizedBlocks n b = 1 ∨ 256 * (sizedBlocks n b - 1) < n * b)) ∧
  (∀ n b : Nat, (∃ v, sizing n b = .ok v) ↔ sizedBlocks n b ≤ 2 ^ 32 - 1) ∧
  (∀ n b : Nat, ∀ v, sizing n b = .ok v → v.toNat = sizedBlocks n b) ∧
  (∀ n b : Nat, 2 ^ 32 - 1 < sizedBlocks n b → sizing n b = .error .sizingTooLarge) ∧
  (∀ n : Nat, (∃ v, sizing n 10 = .ok v) ↔ n ≤ 109951162752)

/-- R166, D30: every rate, a real number or none, has exactly one bits per key: inside (0, 1) the least whole number that is at
least `-ln(p) / (ln 2)^2`, which is at least 1, and 10 outside (0, 1) and for no number. -/
def Obligations.EveryRateHasOneBitsPerKey : Prop :=
  (∀ p : Option ℝ, ∃! b : Nat, IsBitsPerKey p b) ∧
  (∀ (p : ℝ) (b : Nat), IsBitsPerKey (some p) b → 0 < p → p < 1 →
    1 ≤ b ∧ (b : ℝ) - 1 < -Real.log p / Real.log 2 ^ 2 ∧ -Real.log p / Real.log 2 ^ 2 ≤ b) ∧
  (∀ (p : ℝ) (b : Nat), IsBitsPerKey (some p) b → p ≤ 0 ∨ 1 ≤ p → b = 10) ∧
  IsBitsPerKey none 10

/-- R178, R12, R55: the observation of a run does not depend on the order of the steps: two runs from the same state but for the
turns, with no reset action in either, that have both ended have the same responses and the same final block memory. -/
def Obligations.ObservationDoesNotDependOnTheInterleaving : Prop :=
  ∀ (s s' t t' : State) (k k' : Nat), s' = { s with host := { s.host with turns := s'.host.turns } } →
    s.resetFree k = true → s'.resetFree k' = true → Reaches s k t → Reaches s' k' t' →
    runEnded t = true → runEnded t' = true → observation t = observation t'

/-- R178: a run from a reset observes its own responses only, however many runs came before it: when the run that a reset action
begins has ended, one response for each command offered, in order and with that command's OP, and no block word at or beyond
NUM_BLOCKS. What was taken before the reset is kept apart (the model's choice, log 9). -/
def Obligations.RunFromAResetObservesItsOwnResponses : Prop :=
  ∀ (s u t : State) (cfg : Word32) (ts : List Turn) (k : Nat), s.host.turns = .reset cfg :: ts → step s = .next u →
    u.resetFree k = true → Reaches u k t → runEnded t = true →
    (observation t).1.map (fun r => r.toNat / 8) = s.host.stream.map (fun w => w.toNat / 2 ^ 64) ∧
    t.acceptIndex = s.host.stream.length ∧
    t.host.earlier = s.host.earlier ++ [s.host.taken] ∧
    (∀ i, Memory.read (observation t).2 i = if i < t.numBlocks.toNat then Memory.read t.blk i else 0#256) ∧
    (∀ cell ∈ (observation t).2, cell.1 < t.numBlocks.toNat)

/-- R177, R173, R175: in every weakly fair run, whatever its order, every command the host offers is eventually accepted and
answered; and where the host goes on to take every response, the run ends (R178). The run is one out of reset with no reset after,
from any state of the invariant; that commands are offered from one list and that a step takes one turn is the model's form of the
host (log 5, log 16). -/
def Obligations.EveryFairRunAnswersEveryCommand : Prop :=
  ∀ (run : Nat → State) (order : Nat → Turn), EndlessRun run order → (run 0).Inv → (run 0).rstN = true →
    (∀ n, (order n).atPort = true) → WeaklyFair run order →
    (∃ n, (run n).host.stream = [] ∧
      (run n).acceptIndex = (run 0).acceptIndex + (run 0).host.stream.length ∧
      ((run n).host.taken ++ (run n).rspq).length =
        ((run 0).host.taken ++ (run 0).rspq).length + (run 0).host.stream.length) ∧
    (TakesEveryResponse run order → ∃ n, runEnded (run n) = true ∧
      (run n).host.taken.length = ((run 0).host.taken ++ (run 0).rspq).length + (run 0).host.stream.length)
end

