-- ==== Sys2Proof/Laws/State.lean ====
section
/-! SUPPORT. One lemma per field of State for each operation that writes State (Machine/Ops.lean): what it writes and what it
leaves alone. -/

namespace Sys2Proof.Machine

@[simp] theorem storeBlock_config (s : State) (idx : Word32) (v : Block) : (storeBlock s idx v).config = s.config := rfl
@[simp] theorem storeBlock_blk (s : State) (idx : Word32) (v : Block) : (storeBlock s idx v).blk = Memory.write s.blk idx.toNat v := rfl
@[simp] theorem storeBlock_numBlocks (s : State) (idx : Word32) (v : Block) : (storeBlock s idx v).numBlocks = s.numBlocks := rfl
@[simp] theorem storeBlock_cfgErr (s : State) (idx : Word32) (v : Block) : (storeBlock s idx v).cfgErr = s.cfgErr := rfl
@[simp] theorem storeBlock_rspq (s : State) (idx : Word32) (v : Block) : (storeBlock s idx v).rspq = s.rspq := rfl
@[simp] theorem storeBlock_acceptIndex (s : State) (idx : Word32) (v : Block) : (storeBlock s idx v).acceptIndex = s.acceptIndex := rfl
@[simp] theorem storeBlock_rstN (s : State) (idx : Word32) (v : Block) : (storeBlock s idx v).rstN = s.rstN := rfl
@[simp] theorem storeBlock_host (s : State) (idx : Word32) (v : Block) : (storeBlock s idx v).host = s.host := rfl
@[simp] theorem storeBlock_freeReads (s : State) (idx : Word32) (v : Block) : (storeBlock s idx v).freeReads = s.freeReads := rfl

@[simp] theorem respond_config (op : OpField) (st : Status) (hit : Bool) (s : State) : (respond op st hit s).config = s.config := rfl
@[simp] theorem respond_blk (op : OpField) (st : Status) (hit : Bool) (s : State) : (respond op st hit s).blk = s.blk := rfl
@[simp] theorem respond_numBlocks (op : OpField) (st : Status) (hit : Bool) (s : State) : (respond op st hit s).numBlocks = s.numBlocks := rfl
@[simp] theorem respond_cfgErr (op : OpField) (st : Status) (hit : Bool) (s : State) : (respond op st hit s).cfgErr = s.cfgErr := rfl
@[simp] theorem respond_rspq (op : OpField) (st : Status) (hit : Bool) (s : State) : (respond op st hit s).rspq = s.rspq ++ [responseWord op st hit] := rfl
@[simp] theorem respond_acceptIndex (op : OpField) (st : Status) (hit : Bool) (s : State) : (respond op st hit s).acceptIndex = s.acceptIndex := rfl
@[simp] theorem respond_rstN (op : OpField) (st : Status) (hit : Bool) (s : State) : (respond op st hit s).rstN = s.rstN := rfl
@[simp] theorem respond_host (op : OpField) (st : Status) (hit : Bool) (s : State) : (respond op st hit s).host = s.host := rfl
@[simp] theorem respond_freeReads (op : OpField) (st : Status) (hit : Bool) (s : State) : (respond op st hit s).freeReads = s.freeReads := rfl

@[simp] theorem recordRead_config (a : CsrAddr) (d : Word32) (s : State) : (recordRead a d s).config = s.config := rfl
@[simp] theorem recordRead_blk (a : CsrAddr) (d : Word32) (s : State) : (recordRead a d s).blk = s.blk := rfl
@[simp] theorem recordRead_numBlocks (a : CsrAddr) (d : Word32) (s : State) : (recordRead a d s).numBlocks = s.numBlocks := rfl
@[simp] theorem recordRead_cfgErr (a : CsrAddr) (d : Word32) (s : State) : (recordRead a d s).cfgErr = s.cfgErr := rfl
@[simp] theorem recordRead_rspq (a : CsrAddr) (d : Word32) (s : State) : (recordRead a d s).rspq = s.rspq := rfl
@[simp] theorem recordRead_acceptIndex (a : CsrAddr) (d : Word32) (s : State) : (recordRead a d s).acceptIndex = s.acceptIndex := rfl
@[simp] theorem recordRead_rstN (a : CsrAddr) (d : Word32) (s : State) : (recordRead a d s).rstN = s.rstN := rfl
@[simp] theorem recordRead_host (a : CsrAddr) (d : Word32) (s : State) : (recordRead a d s).host = { s.host with reads := s.host.reads ++ [(a, d)] } := rfl
@[simp] theorem recordRead_freeReads (a : CsrAddr) (d : Word32) (s : State) : (recordRead a d s).freeReads = s.freeReads := rfl

@[simp] theorem useFreeRead_config (s : State) : (useFreeRead s).config = s.config := rfl
@[simp] theorem useFreeRead_blk (s : State) : (useFreeRead s).blk = s.blk := rfl
@[simp] theorem useFreeRead_numBlocks (s : State) : (useFreeRead s).numBlocks = s.numBlocks := rfl
@[simp] theorem useFreeRead_cfgErr (s : State) : (useFreeRead s).cfgErr = s.cfgErr := rfl
@[simp] theorem useFreeRead_rspq (s : State) : (useFreeRead s).rspq = s.rspq := rfl
@[simp] theorem useFreeRead_acceptIndex (s : State) : (useFreeRead s).acceptIndex = s.acceptIndex := rfl
@[simp] theorem useFreeRead_rstN (s : State) : (useFreeRead s).rstN = s.rstN := rfl
@[simp] theorem useFreeRead_host (s : State) : (useFreeRead s).host = s.host := rfl
@[simp] theorem useFreeRead_freeReads (s : State) : (useFreeRead s).freeReads = s.freeReads + 1 := rfl

@[simp] theorem popTurn_config (s : State) : (popTurn s).config = s.config := rfl
@[simp] theorem popTurn_blk (s : State) : (popTurn s).blk = s.blk := rfl
@[simp] theorem popTurn_numBlocks (s : State) : (popTurn s).numBlocks = s.numBlocks := rfl
@[simp] theorem popTurn_cfgErr (s : State) : (popTurn s).cfgErr = s.cfgErr := rfl
@[simp] theorem popTurn_rspq (s : State) : (popTurn s).rspq = s.rspq := rfl
@[simp] theorem popTurn_acceptIndex (s : State) : (popTurn s).acceptIndex = s.acceptIndex := rfl
@[simp] theorem popTurn_rstN (s : State) : (popTurn s).rstN = s.rstN := rfl
@[simp] theorem popTurn_host (s : State) : (popTurn s).host = { s.host with turns := s.host.turns.tail } := rfl
@[simp] theorem popTurn_freeReads (s : State) : (popTurn s).freeReads = s.freeReads := rfl

@[simp] theorem consumeCommand_config (s : State) : (consumeCommand s).config = s.config := rfl
@[simp] theorem consumeCommand_blk (s : State) : (consumeCommand s).blk = s.blk := rfl
@[simp] theorem consumeCommand_numBlocks (s : State) : (consumeCommand s).numBlocks = s.numBlocks := rfl
@[simp] theorem consumeCommand_cfgErr (s : State) : (consumeCommand s).cfgErr = s.cfgErr := rfl
@[simp] theorem consumeCommand_rspq (s : State) : (consumeCommand s).rspq = s.rspq := rfl
@[simp] theorem consumeCommand_acceptIndex (s : State) : (consumeCommand s).acceptIndex = s.acceptIndex + 1 := rfl
@[simp] theorem consumeCommand_rstN (s : State) : (consumeCommand s).rstN = s.rstN := rfl
@[simp] theorem consumeCommand_host (s : State) : (consumeCommand s).host = { s.host with stream := s.host.stream.tail } := rfl
@[simp] theorem consumeCommand_freeReads (s : State) : (consumeCommand s).freeReads = s.freeReads := rfl

@[simp] theorem moveHead_config (s : State) : (moveHead s).config = s.config := rfl
@[simp] theorem moveHead_blk (s : State) : (moveHead s).blk = s.blk := rfl
@[simp] theorem moveHead_numBlocks (s : State) : (moveHead s).numBlocks = s.numBlocks := rfl
@[simp] theorem moveHead_cfgErr (s : State) : (moveHead s).cfgErr = s.cfgErr := rfl
@[simp] theorem moveHead_rspq (s : State) : (moveHead s).rspq = s.rspq.tail := rfl
@[simp] theorem moveHead_acceptIndex (s : State) : (moveHead s).acceptIndex = s.acceptIndex := rfl
@[simp] theorem moveHead_rstN (s : State) : (moveHead s).rstN = s.rstN := rfl
@[simp] theorem moveHead_host (s : State) : (moveHead s).host = { s.host with taken := s.host.taken ++ [rspWord s] } := rfl
@[simp] theorem moveHead_freeReads (s : State) : (moveHead s).freeReads = s.freeReads := rfl

@[simp] theorem enterReset_config (s : State) : (enterReset s).config = s.config := rfl
@[simp] theorem enterReset_blk (s : State) : (enterReset s).blk = s.blk := rfl
@[simp] theorem enterReset_numBlocks (s : State) : (enterReset s).numBlocks = s.numBlocks := rfl
@[simp] theorem enterReset_cfgErr (s : State) : (enterReset s).cfgErr = s.cfgErr := rfl
@[simp] theorem enterReset_rspq (s : State) : (enterReset s).rspq = s.rspq := rfl
@[simp] theorem enterReset_acceptIndex (s : State) : (enterReset s).acceptIndex = s.acceptIndex := rfl
@[simp] theorem enterReset_rstN (s : State) : (enterReset s).rstN = false := rfl
@[simp] theorem enterReset_host (s : State) : (enterReset s).host = s.host := rfl
@[simp] theorem enterReset_freeReads (s : State) : (enterReset s).freeReads = s.freeReads := rfl

@[simp] theorem resetInit_config (cfg : Word32) (s : State) : (resetInit cfg s).config = s.config := rfl
@[simp] theorem resetInit_blk (cfg : Word32) (s : State) : (resetInit cfg s).blk = [] := rfl
@[simp] theorem resetInit_numBlocks (cfg : Word32) (s : State) : (resetInit cfg s).numBlocks = coerceBlocks cfg := rfl
@[simp] theorem resetInit_cfgErr (cfg : Word32) (s : State) : (resetInit cfg s).cfgErr = exceedsCapacity s.config (coerceBlocks cfg) := rfl
@[simp] theorem resetInit_rspq (cfg : Word32) (s : State) : (resetInit cfg s).rspq = [] := rfl
@[simp] theorem resetInit_acceptIndex (cfg : Word32) (s : State) : (resetInit cfg s).acceptIndex = 0 := rfl
@[simp] theorem resetInit_rstN (cfg : Word32) (s : State) : (resetInit cfg s).rstN = true := rfl
@[simp] theorem resetInit_host (cfg : Word32) (s : State) : (resetInit cfg s).host = s.host := rfl
@[simp] theorem resetInit_freeReads (cfg : Word32) (s : State) : (resetInit cfg s).freeReads = s.freeReads := rfl

@[simp] theorem beginRun_config (s : State) : (beginRun s).config = s.config := rfl
@[simp] theorem beginRun_blk (s : State) : (beginRun s).blk = s.blk := rfl
@[simp] theorem beginRun_numBlocks (s : State) : (beginRun s).numBlocks = s.numBlocks := rfl
@[simp] theorem beginRun_cfgErr (s : State) : (beginRun s).cfgErr = s.cfgErr := rfl
@[simp] theorem beginRun_rspq (s : State) : (beginRun s).rspq = s.rspq := rfl
@[simp] theorem beginRun_acceptIndex (s : State) : (beginRun s).acceptIndex = s.acceptIndex := rfl
@[simp] theorem beginRun_rstN (s : State) : (beginRun s).rstN = s.rstN := rfl
@[simp] theorem beginRun_host (s : State) : (beginRun s).host = { s.host with taken := [], earlier := s.host.earlier ++ [s.host.taken] } := rfl
@[simp] theorem beginRun_freeReads (s : State) : (beginRun s).freeReads = s.freeReads := rfl

@[simp] theorem withTurns_config (s : State) (ts : List Turn) : (withTurns s ts).config = s.config := rfl
@[simp] theorem withTurns_blk (s : State) (ts : List Turn) : (withTurns s ts).blk = s.blk := rfl
@[simp] theorem withTurns_numBlocks (s : State) (ts : List Turn) : (withTurns s ts).numBlocks = s.numBlocks := rfl
@[simp] theorem withTurns_cfgErr (s : State) (ts : List Turn) : (withTurns s ts).cfgErr = s.cfgErr := rfl
@[simp] theorem withTurns_rspq (s : State) (ts : List Turn) : (withTurns s ts).rspq = s.rspq := rfl
@[simp] theorem withTurns_acceptIndex (s : State) (ts : List Turn) : (withTurns s ts).acceptIndex = s.acceptIndex := rfl
@[simp] theorem withTurns_rstN (s : State) (ts : List Turn) : (withTurns s ts).rstN = s.rstN := rfl
@[simp] theorem withTurns_host (s : State) (ts : List Turn) : (withTurns s ts).host = { s.host with turns := ts } := rfl
@[simp] theorem withTurns_freeReads (s : State) (ts : List Turn) : (withTurns s ts).freeReads = s.freeReads := rfl

end Sys2Proof.Machine
end

