-- ==== Sys2Proof/Laws/Memory.lean ====
section
/-! SUPPORT. The laws of the block memory as data: reading after writing, and the canonical form. -/

namespace Sys2Proof.Machine

@[simp] theorem Memory.read_nil (i : Nat) : Memory.read [] i = 0#256 := rfl

theorem Memory.read_cons (a : Nat) (v : Block) (m : Memory) (i : Nat) :
    Memory.read ((a, v) :: m) i = if i = a then v else Memory.read m i := rfl

@[simp] theorem Memory.wf_nil : Memory.wf [] = true := rfl

theorem Memory.wfFrom_cons {lo a : Nat} {v : Block} {m : Memory} :
    Memory.wfFrom lo ((a, v) :: m) = true ↔ lo ≤ a ∧ v ≠ 0#256 ∧ Memory.wfFrom (a + 1) m = true := by
  simp [Memory.wfFrom, and_assoc]

theorem Memory.wfFrom_mono {lo lo' : Nat} {m : Memory} (h : lo ≤ lo') (hm : Memory.wfFrom lo' m = true) :
    Memory.wfFrom lo m = true := by
  cases m with
  | nil => rfl
  | cons c m =>
    obtain ⟨a, v⟩ := c
    rw [Memory.wfFrom_cons] at hm ⊢
    exact ⟨h.trans hm.1, hm.2⟩

/-- Below a canonical memory's first index every word is the unlisted word. -/
theorem Memory.read_of_lt {m : Memory} {lo i : Nat} (hm : Memory.wfFrom lo m = true) (hi : i < lo) :
    Memory.read m i = 0#256 := by
  induction m generalizing lo with
  | nil => rfl
  | cons c m ih =>
    obtain ⟨a, v⟩ := c
    rw [Memory.wfFrom_cons] at hm
    rw [Memory.read_cons, if_neg (by omega)]
    exact ih hm.2.2 (by omega)

/-- Reading after a write, everything it can answer. -/
theorem Memory.read_write_from {m : Memory} {lo : Nat} (hm : Memory.wfFrom lo m = true) (i k : Nat) (v : Block) :
    Memory.read (Memory.write m i v) k = if k = i then v else Memory.read m k := by
  induction m generalizing lo with
  | nil =>
    by_cases hv : v = 0#256 <;> simp [Memory.write, Memory.read, hv]
  | cons c m ih =>
    obtain ⟨a, w⟩ := c
    rw [Memory.wfFrom_cons] at hm
    obtain ⟨_, _, hm⟩ := hm
    have below : ∀ j, j ≤ a → Memory.read m j = 0#256 := fun j hj => Memory.read_of_lt hm (by omega)
    simp only [Memory.write]
    by_cases hia : i < a
    · by_cases hv : v = 0#256
      · simp only [hia, hv, if_true, Memory.read_cons]
        by_cases hk : k = i
        · subst hk; simp [show ¬k = a by omega, below k (by omega)]
        · simp [hk]
      · simp [hia, hv, Memory.read_cons]
    · by_cases hia' : i = a
      · subst hia'
        by_cases hv : v = 0#256
        · simp only [hv, if_true, lt_irrefl, if_false, Memory.read_cons]
          by_cases hk : k = i
          · subst hk; simp [below k le_rfl]
          · simp [hk]
        · simp only [hv, if_true, lt_irrefl, if_false, Memory.read_cons]
          by_cases hk : k = i <;> simp [hk]
      · simp only [hia, hia', if_false, Memory.read_cons, ih hm]
        by_cases hk : k = a
        · subst hk; simp [show ¬k = i by omega]
        · simp [hk]

theorem Memory.read_write {m : Memory} (hm : Memory.wf m = true) (i k : Nat) (v : Block) :
    Memory.read (Memory.write m i v) k = if k = i then v else Memory.read m k := Memory.read_write_from hm i k v

theorem Memory.wfFrom_write {m : Memory} {lo i : Nat} (hm : Memory.wfFrom lo m = true) (hi : lo ≤ i) (v : Block) :
    Memory.wfFrom lo (Memory.write m i v) = true := by
  induction m generalizing lo with
  | nil =>
    by_cases hv : v = 0#256 <;> simp [Memory.write, Memory.wfFrom, hv, hi]
  | cons c m ih =>
    obtain ⟨a, w⟩ := c
    have hm' := Memory.wfFrom_cons.mp hm
    simp only [Memory.write]
    by_cases hia : i < a
    · by_cases hv : v = 0#256
      · simpa [hia, hv] using hm
      · simp only [hia, hv, if_true, if_false]
        exact Memory.wfFrom_cons.mpr ⟨hi, hv, Memory.wfFrom_cons.mpr ⟨hia, hm'.2⟩⟩
    · by_cases hia' : i = a
      · subst hia'
        by_cases hv : v = 0#256
        · simp only [hv, lt_irrefl, if_false, if_true]
          exact Memory.wfFrom_mono (by omega) hm'.2.2
        · simp only [hv, lt_irrefl, if_false, if_true]
          exact Memory.wfFrom_cons.mpr ⟨hi, hv, hm'.2.2⟩
      · simp only [hia, hia', if_false]
        exact Memory.wfFrom_cons.mpr ⟨hm'.1, hm'.2.1, ih hm'.2.2 (by omega)⟩

/-- Every write keeps the canonical form. -/
theorem Memory.wf_write {m : Memory} (hm : Memory.wf m = true) (i : Nat) (v : Block) :
    Memory.wf (Memory.write m i v) = true := Memory.wfFrom_write hm (Nat.zero_le i) v

/-- A write lists no index but its own and those listed before. -/
theorem Memory.mem_write {m : Memory} {i : Nat} {v : Block} {c : Nat × Block} (h : c ∈ Memory.write m i v) :
    c.1 = i ∨ c ∈ m := by
  induction m with
  | nil =>
    by_cases hv : v = 0#256 <;> simp [Memory.write, hv] at h
    exact .inl (by simp [h])
  | cons d m ih =>
    obtain ⟨a, w⟩ := d
    simp only [Memory.write] at h
    split at h
    · split at h
      · exact .inr h
      · rcases List.mem_cons.mp h with rfl | h
        · exact .inl rfl
        · exact .inr h
    · split at h
      · split at h
        · exact .inr (List.mem_cons_of_mem _ h)
        · rcases List.mem_cons.mp h with rfl | h
          · exact .inl rfl
          · exact .inr (List.mem_cons_of_mem _ h)
      · rcases List.mem_cons.mp h with rfl | h
        · exact .inr List.mem_cons_self
        · exact (ih h).imp_right (List.mem_cons_of_mem _)

end Sys2Proof.Machine
end

