-- ==== Sys2Proof/Laws/Ops.lean ====
section
/-! SUPPORT. What each shared operation and each meaning can answer, said once; callers cite these and do not unfold. -/

namespace Sys2Proof.Machine

theorem accessible_iff {s : State} {idx : Word32} :
    accessible s idx = true ↔ idx.toNat < s.numBlocks.toNat ∧ idx.toNat < s.config.maxBlocks.toNat := by
  simp [accessible]

theorem memRead_ok {s : State} {idx : Word32} (h : accessible s idx = true) :
    memRead s idx = .ok (Memory.read s.blk idx.toNat) := by simp [memRead, h]

theorem memRead_error {s : State} {idx : Word32} (h : accessible s idx = false) :
    memRead s idx = .error (.blockIndexOutOfRange idx) := by simp [memRead, h]

theorem memWrite_ok {s : State} {idx : Word32} (h : accessible s idx = true) (v : Block) :
    memWrite s idx v = .ok (storeBlock s idx v) := by simp [memWrite, h]

/-- R140: raising a status is answering with it, MATCH 0. -/
@[simp] theorem raiseStatus_eq (op : OpField) (st : Status) (s : State) : raiseStatus op st s = respond op st false s := rfl

theorem answerReserved_eq (op : OpField) (s : State) :
    answerReserved op s = respond op (if s.cfgErr then .cfgErr else .illegalOp) false s := by
  unfold answerReserved
  split <;> rfl

/-- R141: INSERT in configuration error. -/
theorem execInsert_cfgErr {s : State} (h : s.cfgErr = true) (hash : Hash) :
    execInsert hash s = .next (respond opInsert .cfgErr false s) := by simp [execInsert, h]

/-- R100: INSERT where its block exists. -/
theorem execInsert_ok {s : State} {hash : Hash} (h : s.cfgErr = false) (ha : accessible s (selectedBlock s hash) = true) :
    execInsert hash s = .next (respond opInsert .ok false (storeBlock s (selectedBlock s hash)
      (Memory.read s.blk (selectedBlock s hash).toNat ||| laneMask s.config (loOf hash)))) := by
  simp [execInsert, h, memRead_ok ha, memWrite_ok ha]

theorem execInsert_fault {s : State} {hash : Hash} (h : s.cfgErr = false)
    (ha : accessible s (selectedBlock s hash) = false) :
    execInsert hash s = .fault (.blockIndexOutOfRange (selectedBlock s hash)) := by
  simp [execInsert, h, memRead_error ha]

/-- R141: QUERY in configuration error. -/
theorem execQuery_cfgErr {s : State} (h : s.cfgErr = true) (hash : Hash) :
    execQuery hash s = .next (respond opQuery .cfgErr false s) := by simp [execQuery, h]

/-- R105: QUERY where its block exists. -/
theorem execQuery_ok {s : State} {hash : Hash} (h : s.cfgErr = false) (ha : accessible s (selectedBlock s hash) = true) :
    execQuery hash s = .next (respond opQuery .ok
      (matchFlag s.config (loOf hash) (Memory.read s.blk (selectedBlock s hash).toNat)) s) := by
  simp [execQuery, h, memRead_ok ha]

theorem execQuery_fault {s : State} {hash : Hash} (h : s.cfgErr = false)
    (ha : accessible s (selectedBlock s hash) = false) :
    execQuery hash s = .fault (.blockIndexOutOfRange (selectedBlock s hash)) := by
  simp [execQuery, h, memRead_error ha]

/-- Everything a command's meaning can answer with a next state: one response, and at most one stored block. -/
theorem exec_command_cases {w : CmdWord} {s t : State} (h : exec (decode (.command w)) s = .next t) :
    (∃ op st hit, t = respond op st hit s) ∨
    (∃ hash, decode (.command w) = .insert hash ∧ s.cfgErr = false ∧ accessible s (selectedBlock s hash) = true ∧
      t = respond opInsert .ok false (storeBlock s (selectedBlock s hash)
        (Memory.read s.blk (selectedBlock s hash).toNat ||| laneMask s.config (loOf hash)))) := by
  cases hi : decode (.command w) with
  | query hash =>
    rw [hi] at h
    simp only [exec] at h
    left
    cases hc : s.cfgErr with
    | true => rw [execQuery_cfgErr hc] at h; cases h; exact ⟨_, _, _, rfl⟩
    | false =>
      cases ha : accessible s (selectedBlock s hash) with
      | true => rw [execQuery_ok hc ha] at h; cases h; exact ⟨_, _, _, rfl⟩
      | false => rw [execQuery_fault hc ha] at h; cases h
  | insert hash =>
    rw [hi] at h
    simp only [exec] at h
    cases hc : s.cfgErr with
    | true => rw [execInsert_cfgErr hc] at h; cases h; exact .inl ⟨_, _, _, rfl⟩
    | false =>
      cases ha : accessible s (selectedBlock s hash) with
      | true => rw [execInsert_ok hc ha] at h; cases h; exact .inr ⟨hash, rfl, rfl, ha, rfl⟩
      | false => rw [execInsert_fault hc ha] at h; cases h
  | reserved00 hash =>
    rw [hi] at h
    simp only [exec, execReserved00, answerReserved_eq, Host.Outcome.next.injEq] at h
    exact .inl ⟨_, _, _, h.symm⟩
  | reserved11 hash =>
    rw [hi] at h
    simp only [exec, execReserved11, answerReserved_eq, Host.Outcome.next.injEq] at h
    exact .inl ⟨_, _, _, h.symm⟩
  | csrRead a =>
    simp only [decode, decodeCommand] at hi
    split at hi
    · cases hi
    · split at hi
      · cases hi
      · split at hi <;> cases hi

/-- R60: when a command can be accepted. -/
theorem cmdReady_iff {s : State} : cmdReady s = true ↔ s.rstN = true ∧ s.rspq.length < s.config.rspDepth := by
  simp [cmdReady]

/-- R64: when a response is presented. -/
theorem rspValid_iff {s : State} : rspValid s = true ↔ s.rstN = true ∧ s.rspq ≠ [] := by
  simp [rspValid]

/-- R60: when the accept step is enabled. -/
theorem acceptEnabled_iff {s : State} : acceptEnabled s = true ↔ cmdReady s = true ∧ s.host.stream ≠ [] := by
  simp [acceptEnabled, cmdValid]

/-- R175: when the host is required to take. -/
theorem takeRequired_iff {s : State} : takeRequired s = true ↔ rspValid s = true ∧ s.host.stream ≠ [] := by
  simp [takeRequired, cmdValid]

/-- R25: when a count exceeds the capacity. -/
theorem exceedsCapacity_iff {c : Config} {n : Word32} : exceedsCapacity c n = true ↔ c.maxBlocks.toNat < n.toNat := by
  simp [exceedsCapacity]

@[simp] theorem cmdReady_popTurn (s : State) : cmdReady (popTurn s) = cmdReady s := rfl
@[simp] theorem rspValid_popTurn (s : State) : rspValid (popTurn s) = rspValid s := rfl
@[simp] theorem acceptEnabled_popTurn (s : State) : acceptEnabled (popTurn s) = acceptEnabled s := rfl
@[simp] theorem cmdReady_withTurns (s : State) (ts : List Turn) : cmdReady (withTurns s ts) = cmdReady s := rfl
@[simp] theorem rspValid_withTurns (s : State) (ts : List Turn) : rspValid (withTurns s ts) = rspValid s := rfl
@[simp] theorem rspWord_withTurns (s : State) (ts : List Turn) : rspWord (withTurns s ts) = rspWord s := rfl
@[simp] theorem rspWord_popTurn (s : State) : rspWord (popTurn s) = rspWord s := rfl

/-- What the accept step takes (R60). -/
theorem acceptCommand_eq_some {s s' : State} {w : CmdWord} :
    acceptCommand s = some (w, s') ↔ cmdReady s = true ∧ s.host.stream.head? = some w ∧ s' = consumeCommand s := by
  unfold acceptCommand
  cases hr : cmdReady s <;> cases hs : s.host.stream <;> simp [eq_comm]

/-- R60: the accept step takes a command exactly when it is enabled. -/
theorem acceptCommand_isSome (s : State) : (acceptCommand s).isSome = acceptEnabled s := by
  unfold acceptCommand acceptEnabled cmdValid
  cases cmdReady s <;> cases s.host.stream <;> rfl

/-- What a take step can answer (R64). -/
theorem takeResponse_next {s t : State} (h : takeResponse s = .next t) :
    (rspValid s = false ∧ t = s) ∨ (rspValid s = true ∧ statusOf (rspWord s) ≠ 0b11#2 ∧ t = moveHead s) := by
  unfold takeResponse at h
  split at h
  · split at h
    · cases h
    · cases h; exact .inr ⟨‹_›, ‹_›, rfl⟩
  · rename_i hv; cases h; exact .inl ⟨by simpa using hv, rfl⟩

/-- Everything a step can do when it answers a next state. -/
theorem step_cases {s t : State} (h : step s = .next t) :
    (s.host.turns = [] ∧ t = s) ∨
    (∃ ts, s.host.turns = .accept :: ts ∧
      ((acceptCommand (popTurn s) = none ∧ t = popTurn s) ∨
       (∃ w, cmdReady s = true ∧ s.host.stream.head? = some w ∧
          exec (decode (.command w)) (consumeCommand (popTurn s)) = .next t))) ∨
    (∃ ts, s.host.turns = .take :: ts ∧
      ((rspValid s = false ∧ t = popTurn s) ∨
       (rspValid s = true ∧ statusOf (rspWord s) ≠ 0b11#2 ∧ t = moveHead (popTurn s)))) ∨
    (∃ a ts, s.host.turns = .readStatus a :: ts ∧ t = readPort a (popTurn s)) ∨
    (∃ ts, s.host.turns = .holdReset :: ts ∧ t = enterReset (popTurn s)) ∨
    (∃ cfg ts, s.host.turns = .reset cfg :: ts ∧ t = beginRun (resetInit cfg (popTurn s))) := by
  unfold step at h
  split at h
  · rename_i ht; cases h; exact .inl ⟨ht, rfl⟩
  · rename_i ts ht
    refine .inr (.inl ⟨ts, ht, ?_⟩)
    split at h
    · rename_i ha; cases h; exact .inl ⟨ha, rfl⟩
    · rename_i w s' ha
      obtain ⟨hr, hw, rfl⟩ := acceptCommand_eq_some.mp ha
      exact .inr ⟨w, hr, hw, h⟩
  · rename_i ts ht; exact .inr (.inr (.inl ⟨ts, ht, takeResponse_next h⟩))
  · rename_i a ts ht
    refine .inr (.inr (.inr (.inl ⟨a, ts, ht, ?_⟩)))
    simp only [decode, exec, execCsrRead, Host.Outcome.next.injEq] at h
    exact h.symm
  · rename_i ts ht; cases h; exact .inr (.inr (.inr (.inr (.inl ⟨ts, ht, rfl⟩))))
  · rename_i cfg ts ht; cases h; exact .inr (.inr (.inr (.inr (.inr ⟨cfg, ts, ht, rfl⟩))))

/-- R66: what a status read leaves: the host has the datum, and during reset one free value is used up. -/
theorem readPort_eq (a : CsrAddr) (s : State) :
    readPort a s = { s with
      host := { s.host with reads := s.host.reads ++ [(a, csrRdata s a)] }
      freeReads := if s.rstN then s.freeReads else s.freeReads + 1 } := by
  unfold readPort
  cases h : s.rstN <;> simp [recordRead, useFreeRead, h]

/-- State.reset is the reset step of R161 with `cfg_num_blocks = 0`, of an engine of unknown parameters. -/
theorem reset_eq_afterReset : State.reset = afterReset Config.built 0#32 := rfl

end Sys2Proof.Machine
end

