-- ==== Sys2Proof/Laws/Runs.lean ====
section
/-! SUPPORT. Runs: their inversion, said once, and the induction of an invariant along a run, packaged once. -/

namespace Sys2Proof.Machine

theorem core_run_succ (M : Host.Core) (k : Nat) (s t : M.State) :
    M.run (k + 1) s = .next t ↔ ∃ u, M.step s = .next u ∧ M.run k u = .next t := by
  have h : M.run (k + 1) s = match M.step s with
      | .next u => M.run k u
      | .fault r => .fault r
      | .refused r => .refused r := rfl
  rw [h]
  cases M.step s <;> simp

@[simp] theorem reaches_zero {s t : State} : Reaches s 0 t ↔ t = s := by
  constructor
  · intro h; cases h; rfl
  · rintro rfl; rfl

/-- A run of `k + 1` steps is a step and a run of `k`. -/
theorem reaches_succ {s : State} {k : Nat} {t : State} :
    Reaches s (k + 1) t ↔ ∃ u, step s = .next u ∧ Reaches u k t := core_run_succ Sys2Proof.core k s t

theorem reaches_add {s : State} {k l : Nat} {t : State} :
    Reaches s (k + l) t ↔ ∃ u, Reaches s k u ∧ Reaches u l t := by
  induction k generalizing s with
  | zero => simp
  | succ k ih =>
    rw [Nat.add_right_comm, reaches_succ]
    constructor
    · rintro ⟨u, hu, h⟩
      obtain ⟨v, hv, h⟩ := ih.mp h
      exact ⟨v, reaches_succ.mpr ⟨u, hu, hv⟩, h⟩
    · rintro ⟨v, hv, h⟩
      obtain ⟨u, hu, hv⟩ := reaches_succ.mp hv
      exact ⟨u, hu, ih.mpr ⟨v, hv, h⟩⟩

/-- Every step lets one turn pass and no other. -/
theorem step_turns {s t : State} (h : step s = .next t) : t.host.turns = s.host.turns.tail := by
  rcases step_cases h with ⟨ht, rfl⟩ | ⟨ts, ht, hh⟩ | ⟨ts, ht, hh⟩ | ⟨a, ts, ht, rfl⟩ | ⟨ts, ht, rfl⟩ | ⟨cfg, ts, ht, rfl⟩
  · simp [ht]
  · rcases hh with ⟨_, rfl⟩ | ⟨w, _, _, he⟩
    · rfl
    · rcases exec_command_cases he with ⟨_, _, _, rfl⟩ | ⟨_, _, _, _, rfl⟩ <;> rfl
  · rcases hh with ⟨_, rfl⟩ | ⟨_, _, rfl⟩ <;> rfl
  · rw [readPort_eq]; rfl
  · rfl
  · rfl

/-- The first of reset-free steps is reset-free, and so are those after it. -/
theorem resetFree_succ {s t : State} {k : Nat} (h : s.resetFree (k + 1) = true) (e : step s = .next t) :
    s.nextResetFree = true ∧ t.resetFree k = true := by
  unfold State.resetFree at *
  unfold State.nextResetFree
  rw [step_turns e]
  cases ht : s.host.turns <;> simp_all

/-- What every step that is no reset action keeps, every run between two resets keeps (R110, R111). -/
theorem reaches_keeps_resetFree {P : State → Prop}
    (hP : ∀ s t, P s → s.nextResetFree = true → step s = .next t → P t) {s t : State} {k : Nat}
    (hs : P s) (hf : s.resetFree k = true) (h : Reaches s k t) : P t := by
  induction k generalizing s with
  | zero => rw [reaches_zero.mp h]; exact hs
  | succ k ih =>
    obtain ⟨u, hu, h⟩ := reaches_succ.mp h
    obtain ⟨h1, h2⟩ := resetFree_succ hf hu
    exact ih (hP s u hs h1 hu) h2 h

/-- R178: what a claim about a run reads of the block memory: each word below NUM_BLOCKS as it is, no other. -/
theorem read_observedBlocks (s : State) (i : Nat) :
    Memory.read (observedBlocks s) i = if i < s.numBlocks.toNat then Memory.read s.blk i else 0#256 := by
  unfold observedBlocks
  induction s.blk with
  | nil => simp [Memory.read]
  | cons cell m ih =>
    obtain ⟨a, v⟩ := cell
    by_cases hi : i = a
    · subst hi
      by_cases ha : i < s.numBlocks.toNat <;> simp [ha, Memory.read, ih]
    · by_cases ha : a < s.numBlocks.toNat <;> simp [ha, hi, Memory.read, ih]

/-- Where the invariant holds the observation leaves nothing out: no word beyond NUM_BLOCKS is listed (R28). -/
theorem observedBlocks_of_inv {s : State} (h : s.Inv) : observedBlocks s = s.blk := by
  simpa [observedBlocks] using h.blk_below

/-- An endless run begun later is an endless run. -/
theorem EndlessRun.shift {run : Nat → State} {order : Nat → Turn} (h : EndlessRun run order) (n : Nat) :
    EndlessRun (fun m => run (n + m)) (fun m => order (n + m)) := fun m => h (n + m)

/-- What every step of any turn keeps holds all along an endless run. -/
theorem EndlessRun.keeps {P : State → Prop} (hP : ∀ s t ts, P s → step (withTurns s ts) = .next t → P t)
    {run : Nat → State} {order : Nat → Turn} (h : EndlessRun run order) (h0 : P (run 0)) : ∀ n, P (run n)
  | 0 => h0
  | n + 1 => hP _ _ _ (h.keeps hP h0 n) (h n)

/-- What every step keeps, every run keeps. -/
theorem reaches_keeps {P : State → Prop} (hP : ∀ s t, P s → step s = .next t → P t) {s t : State} {k : Nat}
    (hs : P s) (h : Reaches s k t) : P t := by
  induction k generalizing s with
  | zero => rw [reaches_zero.mp h]; exact hs
  | succ k ih =>
    obtain ⟨u, hu, h⟩ := reaches_succ.mp h
    exact ih (hP s u hs hu) h

end Sys2Proof.Machine
end

