-- ==== Sys2Proof/Laws/Datapath.lean ====
section
/-! SUPPORT. Small laws of the operand fields, the block views and the next INSERT, cited where a proof meets them. -/

namespace Sys2Proof.Machine

theorem hiOf_toNat (h : Hash) : (hiOf h).toNat = h.toNat / 2 ^ 32 := by
  have := h.isLt
  simp only [hiOf, BitVec.extractLsb'_toNat, Nat.shiftRight_eq_div_pow]
  omega

theorem loOf_toNat (h : Hash) : (loOf h).toNat = h.toNat % 2 ^ 32 := by
  simp only [loOf, BitVec.extractLsb'_toNat, Nat.shiftRight_eq_div_pow]
  omega

/-- R44: bit `b` of lane `j`. -/
theorem laneOf_getLsbD (w : Block) (j : Fin 8) (b : Nat) :
    (laneOf w j).getLsbD b = (decide (b < 32) && w.getLsbD (32 * j.val + b)) := by
  rw [laneOf, BitVec.getLsbD_extractLsb']

/-- Blocks that agree lane by lane are equal. -/
theorem block_ext_lanes {v w : Block}
    (h : ∀ (j : Fin 8) (b : Nat), b < 32 → v.getLsbD (32 * j.val + b) = w.getLsbD (32 * j.val + b)) : v = w := by
  apply BitVec.eq_of_getLsbD_eq
  intro k hk
  have := h ⟨k / 32, by omega⟩ (k % 32) (by omega)
  simpa [Nat.div_add_mod] using this

/-- R89: a salt is odd. -/
theorem Config.salt_odd (c : Config) (j : Fin 8) : (c.salt j).toNat % 2 = 1 := by
  have h := c.salts_odd
  unfold saltsOdd at h
  rw [List.all_eq_true] at h
  have := h (c.salt j) (by simp [Config.salt])
  rw [BitVec.getLsbD, Nat.testBit_zero] at this
  simpa using this

/-- R24: the coerced block count. -/
theorem coerceBlocks_toNat (cfg : Word32) : (coerceBlocks cfg).toNat = if cfg.toNat = 0 then 1 else cfg.toNat := by
  unfold coerceBlocks
  by_cases h : cfg = 0#32
  · subst h; rfl
  · have : cfg.toNat ≠ 0 := fun e => h (BitVec.eq_of_toNat_eq e)
    rw [if_neg h, if_neg this]

/-- When the next step performs an INSERT (R60, R100, R141). -/
theorem performedInsert_eq_some {s : State} {hash : Hash} :
    performedInsert s = some hash ↔
      ∃ ts w, s.host.turns = .accept :: ts ∧ s.host.stream.head? = some w ∧ decode (.command w) = .insert hash ∧
        cmdReady s = true ∧ s.cfgErr = false := by
  unfold performedInsert
  constructor
  · intro h
    split at h
    · rename_i ts w ws ht hs
      split at h
      · split at h
        · rename_i hd hc
          cases h
          simp only [Bool.and_eq_true, Bool.not_eq_true'] at hc
          exact ⟨ts, w, ht, by simp [hs], hd, hc.1, hc.2⟩
        · cases h
      all_goals cases h
    · cases h
  · rintro ⟨ts, w, ht, hs, hd, hr, hc⟩
    cases hst : s.host.stream with
    | nil => simp [hst] at hs
    | cons w' ws =>
      rw [hst, List.head?_cons, Option.some.injEq] at hs
      subst hs
      rw [ht]
      simp [hd, hr, hc]

end Sys2Proof.Machine
end

