-- ==== Sys2Proof/Laws/PerInstr.lean ====
section
/-! SUPPORT. Per-instruction laws. TableRow: an instruction's words are those of its row of spec/opcode_table.json. -/

namespace Sys2Proof.Laws.TableRow

/-- The encoding of the instruction lies in the row of its mnemonic, and in no other command row. -/
def Statement (i : Instr) : Prop :=
  match encode i with
  | .command w => ∀ r ∈ commandTable, r.covers w = decide (r.mnemonic = i.mnemonic)
  | .statusRead _ => i.mnemonic = "CSR_READ"

/-- The OP field of a word with fields `op`, `h`. -/
theorem opField_commandWord (op : OpField) (h : Hash) : opField (commandWord op h) = op := by
  unfold opField commandWord
  exact BitVec.extractLsb'_append_eq_left

theorem and_three (op : OpField) : op &&& 0b11#2 = op := by revert op; decide

/-- Masking a word with the table's mask keeps its OP field and clears the rest. -/
theorem masked_eq (op : OpField) (h : Hash) :
    commandWord op h &&& 0x30000000000000000#66 = commandWord op 0#64 := by
  have h0 : (0x30000000000000000#66 : CmdWord) = (0b11#2 : BitVec 2) ++ (0#64 : BitVec 64) := by decide
  rw [commandWord, h0, BitVec.and_append, and_three, BitVec.and_zero]
  rfl

/-- A word is in a row exactly when its OP field is the row's. -/
theorem covers_iff (m : String) (op k : OpField) (h : Hash) :
    CommandRow.covers ⟨m, 0x30000000000000000#66, commandWord k 0#64⟩ (commandWord op h) = decide (op = k) := by
  rw [Bool.eq_iff_iff]
  simp only [CommandRow.covers, masked_eq, beq_iff_eq, decide_eq_true_eq]
  refine ⟨fun e => ?_, fun e => by rw [e]⟩
  have := congrArg opField e
  rwa [opField_commandWord, opField_commandWord] at this

theorem covers_rows (i : Instr) (op : OpField) (h : Hash) (hi : encode i = .command (commandWord op h))
    (hq : decide (op = opQuery) = decide ("QUERY" = i.mnemonic))
    (hn : decide (op = opInsert) = decide ("INSERT" = i.mnemonic))
    (h0 : decide (op = opReserved00) = decide ("RESERVED_00" = i.mnemonic))
    (h3 : decide (op = opReserved11) = decide ("RESERVED_11" = i.mnemonic)) : Statement i := by
  unfold Statement
  rw [hi]
  intro r hr
  simp only [commandTable, List.mem_cons, List.not_mem_nil, or_false] at hr
  obtain rfl | rfl | rfl | rfl := hr
  · exact (covers_iff _ op opQuery h).trans hq
  · exact (covers_iff _ op opInsert h).trans hn
  · exact (covers_iff _ op opReserved00 h).trans h0
  · exact (covers_iff _ op opReserved11 h).trans h3

theorem query (hash : Hash) : Statement (.query hash) :=
  covers_rows _ opQuery hash rfl rfl rfl rfl rfl
theorem insert (hash : Hash) : Statement (.insert hash) :=
  covers_rows _ opInsert hash rfl rfl rfl rfl rfl
theorem reserved00 (hash : Hash) : Statement (.reserved00 hash) :=
  covers_rows _ opReserved00 hash rfl rfl rfl rfl rfl
theorem reserved11 (hash : Hash) : Statement (.reserved11 hash) :=
  covers_rows _ opReserved11 hash rfl rfl rfl rfl rfl
theorem csrRead (addr : CsrAddr) : Statement (.csrRead addr) := rfl

end Sys2Proof.Laws.TableRow
end

