-- ==== Sys2Proof/Tests/Slice0.lean ====
section
/-! SUPPORT. Tests: expected results from the rules and from spec/95_test_vectors.md (L2, P1 to P3), and, for every statement
with hypotheses, a witness that meets them. -/

namespace Sys2Proof.Tests

open Sys2Proof.Machine

/-- An answer that is a next state with this property. -/
def nextIs (o : Host.Outcome State Fault Refusal) (p : State → Bool) : Bool :=
  match o with
  | .next t => p t
  | .fault _ => false
  | .refused _ => false

/-- A run of `k` steps that ends in a state with this property. -/
def runIs (s : State) (k : Nat) (p : State → Bool) : Bool := nextIs (Host.Core.run Sys2Proof.core k s) p

theorem nextIs_elim {o : Host.Outcome State Fault Refusal} {p : State → Bool} (h : nextIs o p = true) :
    ∃ t, o = .next t ∧ p t = true := by
  cases o with
  | next t => exact ⟨t, rfl, h⟩
  | fault f => cases h
  | refused r => cases h

theorem runIs_elim {s : State} {k : Nat} {p : State → Bool} (h : runIs s k p = true) :
    ∃ t, Reaches s k t ∧ p t = true := nextIs_elim h

/-- The candidate salts of D9 (from general knowledge, not the chip's; only tests use them), 64 blocks, two responses. -/
def demoConfig : Config where
  salts := #v[0x47b6137b, 0x44974d91, 0x8824ad5b, 0xa2b7289d, 0x705495c7, 0x2df1424b, 0x9efc4947, 0x5c6bfb31]
  maxBlocks := 64#32
  rspDepth := 2
  salts_odd := by decide
  salts_distinct := by decide
  maxBlocks_pos := by decide
  rspDepth_pos := by decide

/-- The engine of `demoConfig` after a reset with this count. -/
def demo (cfg : Word32) : State := afterReset demoConfig cfg

/-- A host about to do these turns with these commands. -/
def withHost (s : State) (stream : List CmdWord) (turns : List Turn) : State :=
  { s with host := { s.host with stream := stream, turns := turns } }

/-- Blocks `A`, `C` and `F` of 95_test_vectors.md L2-4. -/
def blockA : Block := 0x0000000100000001000000010000000100000001000000010000000100000001#256
def blockC : Block := 0x0001000000010000000100000001000000010000000100000001000000010000#256
def blockF : Block := BitVec.allOnes 256

/-- A four-block engine with this memory. -/
def holding (m : Memory) : State := { demo 4#32 with blk := m }

/-! ### WellFormed: each check refuses an ill-formed term -/

def rawGood : RawConfig := { salts := demoConfig.salts.toList, maxBlocks := 64, rspDepth := 2 }

theorem test_wf_legal : rawGood.wf = true := by decide
theorem test_wf_seven_salts : ({ rawGood with salts := rawGood.salts.tail } : RawConfig).saltsLegal = false := by decide
theorem test_wf_even_salt : ({ rawGood with salts := [2, 1, 3, 5, 7, 9, 11, 13] } : RawConfig).saltsLegal = false := by decide
theorem test_wf_equal_salts : ({ rawGood with salts := [1, 1, 3, 5, 7, 9, 11, 13] } : RawConfig).saltsLegal = false := by decide
theorem test_wf_no_capacity : ({ rawGood with maxBlocks := 0 } : RawConfig).capacityLegal = false := by decide
theorem test_wf_capacity_33_bits : ({ rawGood with maxBlocks := 4294967296 } : RawConfig).capacityLegal = false := by decide
theorem test_wf_no_depth : ({ rawGood with rspDepth := 0 } : RawConfig).depthLegal = false := by decide

/-! ### Decoding: words of L2-8 and of the encoding of R61, R66 -/

theorem test_decode_query : decode (.command 0x1FFFFFFFFFFFFFFFF#66) = .query 0xFFFFFFFFFFFFFFFF#64 := by decide
theorem test_decode_insert : decode (.command 0x24000000080000000#66) = .insert 0x4000000080000000#64 := by decide
theorem test_decode_reserved00 : decode (.command 0x00123456789ABCDEF#66) = .reserved00 0x0123456789ABCDEF#64 := by decide
theorem test_decode_reserved11 : decode (.command 0x30000000000000000#66) = .reserved11 0x0000000000000000#64 := by decide
theorem test_decode_csr : decode (.statusRead 0xF#4) = .csrRead 0xF#4 := by decide
theorem test_encode_insert : encode (.insert 0xDEADBEEF12345678#64) = .command 0x2DEADBEEF12345678#66 := by decide
theorem test_row_query : decodeTableWord 72 0x10000000000000000 = some (.query 0#64) := by decide
theorem test_row_csr : decodeTableWord 8 0x2 = some (.csrRead 0x2#4) := by decide
theorem test_row_padding_refused : decodeTableWord 72 0x40000000000000000 = none := by decide
theorem test_row_csr_padding_refused : transferOf 8 0x10 = .error .aboveStatusAddress := by rfl

/-! ### Datapath: L2-1 and L2-3 -/

theorem test_index_deadbeef : blockIndex 1000#32 0xDEADBEEF#32 = 869#32 := by decide
theorem test_index_largest : blockIndex 0xFFFFFFFF#32 0xFFFFFFFF#32 = 0xFFFFFFFE#32 := by decide
theorem test_index_boundary : blockIndex 3#32 0x55555555#32 = 0#32 ∧ blockIndex 3#32 0x55555556#32 = 1#32 := by decide
theorem test_mask_ordinary : laneMask demoConfig 0x12345678#32 =
    0x0000000400000010000004000000800000000004008000002000000000001000#256 := by decide
theorem test_mask_all_ones : laneMask demoConfig 0xFFFFFFFF#32 =
    0x0010000000001000040000000002000000000800000040000080000000800000#256 := by decide

/-! ### Commands: L2-4 to L2-6 -/

theorem test_insert_sets_bits : nextIs (execInsert 0x4000000080000000#64 (holding []))
    (fun t => decide (t.blk = [(1, blockC)] ∧ t.rspq = [0x10#5])) = true := by decide
theorem test_insert_ors_old_bits : nextIs (execInsert 0xFFFFFFFF80000000#64 (holding [(3, blockA)]))
    (fun t => decide (t.blk = [(3, blockA ||| blockC)])) = true := by decide
theorem test_query_needs_every_lane : nextIs (execQuery 0x0000000000000000#64 (holding [(0, blockA &&& ~~~1#256)]))
    (fun t => decide (t.rspq = [0x08#5])) = true := by decide
theorem test_query_saturated : nextIs (execQuery 0x8000000012345678#64 (holding [(2, blockF)]))
    (fun t => decide (t.rspq = [0x09#5] ∧ t.blk = [(2, blockF)])) = true := by decide
theorem test_reserved00 : nextIs (execReserved00 0x0123456789ABCDEF#64 (holding []))
    (fun t => decide (t = { holding [] with rspq := [0x02#5] })) = true := by decide
theorem test_reserved11_cfgErr_wins : nextIs (execReserved11 0#64 (demo 65#32))
    (fun t => decide (t.rspq = [0x1C#5])) = true := by decide
theorem test_insert_cfgErr : nextIs (execInsert 0#64 (demo 65#32))
    (fun t => decide (t.rspq = [0x14#5] ∧ t.blk = [])) = true := by decide
theorem test_csr_status : nextIs (execCsrRead 0x1#4 (demo 65#32))
    (fun t => decide (t.host.reads = [(0x1#4, 1#32)])) = true := by decide
theorem test_csr_reserved : nextIs (execCsrRead 0x3#4 (demo 65#32))
    (fun t => decide (t.host.reads = [(0x3#4, 0#32)])) = true := by decide

/-! ### Reset and the step: L2-7, R60, R64 -/

theorem test_reset_coerces_zero : (resetInit 0#32 (demo 65#32)).numBlocks = 1#32 := by decide
theorem test_reset_at_capacity : (demo 64#32).cfgErr = false ∧ (demo 65#32).cfgErr = true := by decide
theorem test_full_queue_holds : nextIs (step (withHost { demo 4#32 with rspq := [0x10#5, 0x10#5] } [0#66] [.accept]))
    (fun t => decide (t.host.stream = [0#66] ∧ t.rspq = [0x10#5, 0x10#5] ∧ t.acceptIndex = 0)) = true := by decide
theorem test_take_head : nextIs (step (withHost { demo 4#32 with rspq := [0x10#5, 0x09#5] } [] [.take]))
    (fun t => decide (t.host.taken = [0x10#5] ∧ t.rspq = [0x09#5])) = true := by decide
theorem test_take_reserved_status_faults :
    step (withHost { demo 4#32 with rspq := [0x06#5] } [] [.take]) = .fault .reservedStatus := by rfl
theorem test_reset_closes_the_run :
    nextIs (step { withHost (demo 4#32) [] [.reset 4#32] with
      host := { HostAgent.idle with turns := [.reset 4#32], taken := [0x10#5] } })
    (fun t => decide (observation t = ([], []) ∧ t.host.earlier = [[0x10#5]])) = true := by decide
theorem test_observation_reads_no_word_beyond :
    observation { holding [(3, blockA), (4, blockC)] with rspq := [] } = ([], [(3, blockA)]) := by decide
theorem test_no_block_faults : execInsert 0#64 { demo 4#32 with numBlocks := 0#32 } = .fault (.blockIndexOutOfRange 0#32) := by rfl

/-- After reset, with nothing known of the build, the very next step runs a placed word of each row. -/
theorem test_placed_words_run :
    nextIs (step (State.reset.withFetchWord 72 0x10000000000000000)) (fun t => decide (t.acceptIndex = 1 ∧ t.rspq.length = 1)) = true ∧
    nextIs (step (State.reset.withFetchWord 72 0x20000000000000000)) (fun t => decide (t.rspq = [0x10#5])) = true ∧
    nextIs (step (State.reset.withFetchWord 72 0x00000000000000000)) (fun t => decide (t.rspq = [0x02#5])) = true ∧
    nextIs (step (State.reset.withFetchWord 72 0x30000000000000000)) (fun t => decide (t.rspq = [0x1A#5])) = true ∧
    nextIs (step (State.reset.withFetchWord 8 0x0)) (fun t => decide (t.host.reads = [(0x0#4, 1#32)])) = true := by
  refine ⟨?_, ?_, ?_, ?_, ?_⟩ <;> decide

/-! ### Witnesses: for each statement with hypotheses, a concrete state and operands that meet them together -/

/-- An engine of four blocks with blocks A and C in words 0 and 1, one response waiting, and a host that inserts and queries. -/
def busy : State :=
  withHost { demo 4#32 with blk := [(0, blockA), (1, blockC)], rspq := [0x10#5] }
    [0x24000000012345678#66, 0x14000000012345678#66] [.accept, .take, .take, .accept, .readStatus 0x0#4]

/-- The same engine in configuration error. -/
def broken : State := withHost (demo 65#32) [0x30000000000000000#66] [.accept, .reset 64#32]

/-- The same engine held in reset. -/
def held : State := withHost { demo 4#32 with rstN := false } [0#66] [.accept, .take]

theorem busy_inv : busy.Inv :=
  ⟨by decide, by decide, by decide, by decide, by decide, by decide, by decide⟩
theorem broken_inv : broken.Inv :=
  ⟨by decide, by decide, by decide, by decide, by decide, by decide, by decide⟩
theorem reset_inv : State.reset.Inv :=
  ⟨by decide, by decide, by decide, by decide, by decide, by decide, by decide⟩

/-- A four-block engine whose block 2 is saturated (L2-4 Q5). -/
def saturated : State := holding [(2, blockF)]
theorem saturated_inv : saturated.Inv :=
  ⟨by decide, by decide, by decide, by decide, by decide, by decide, by decide⟩

theorem witness_DecodingTheEncodingGivesTheInstructionBack :
    (Instr.insert 0x4000000080000000#64).wf = true ∧ (Instr.csrRead 0xF#4).wf = true ∧
    encode (.insert 0x4000000080000000#64) = .command 0x24000000080000000#66 ∧ encode (.csrRead 0xF#4) = .statusRead 0xF#4 := by
  decide

theorem witness_EveryCommandWordDecodesByItsOpField :
    (0x0FFFFFFFFFFFFFFFF#66).toNat / 2 ^ 64 = 0 ∧ (0x10000000000000000#66).toNat / 2 ^ 64 = 1 ∧
    (0x2FFFFFFFFFFFFFFFF#66).toNat / 2 ^ 64 = 2 ∧ (0x30000000000000000#66).toNat / 2 ^ 64 = 3 := by decide

theorem witness_StepRunsTheDecodedInstruction :
    (∃ w ws ts, busy.host.turns = .accept :: ts ∧ busy.host.stream = w :: ws ∧ busy.rstN = true ∧
      busy.rspq.length < busy.config.rspDepth) ∧
    (∃ a ts, (withHost busy [] [.readStatus 0x2#4]).host.turns = .readStatus a :: ts) :=
  ⟨⟨_, _, _, rfl, rfl, rfl, by decide⟩, ⟨_, _, rfl⟩⟩

theorem witness_PlacedTableWordIsRunByTheNextStep :
    decodeTableWord 72 0x20000000000000000 = some (.insert 0#64) ∧ decodeTableWord 8 0xF = some (.csrRead 0xF#4) ∧
    cmdReady busy = true := by decide

theorem witness_NothingIsAcceptedUnlessOfferedAndReady :
    (∃ ts, (withHost busy [] [.accept]).host.turns = .accept :: ts ∧ (withHost busy [] [.accept]).host.stream = []) ∧
    (∃ ts, held.host.turns = .accept :: ts ∧ held.rstN = false) ∧
    (∃ ts, (withHost { busy with rspq := [0x10#5, 0x10#5] } [0#66] [.accept]).host.turns = .accept :: ts ∧
      (withHost { busy with rspq := [0x10#5, 0x10#5] } [0#66] [.accept]).config.rspDepth ≤
        (withHost { busy with rspq := [0x10#5, 0x10#5] } [0#66] [.accept]).rspq.length) ∧
    State.reset.host.turns = [] :=
  ⟨⟨_, rfl, rfl⟩, ⟨_, rfl, rfl⟩, ⟨_, rfl, by decide⟩, rfl⟩

theorem witness_TakeStepDeliversTheHeadResponse :
    (∃ ts r rs, (withHost busy [] [.take]).Inv ∧ busy.rstN = true ∧ (withHost busy [] [.take]).host.turns = .take :: ts ∧
      (withHost busy [] [.take]).rspq = r :: rs) ∧
    (∃ ts, (withHost saturated [] [.take]).Inv ∧ (withHost saturated [] [.take]).host.turns = .take :: ts ∧
      (withHost saturated [] [.take]).rspq = []) ∧
    (∃ ts, (withHost { busy with rspq := [0x06#5] } [] [.take]).host.turns = .take :: ts ∧ busy.rstN = true ∧
      (0x06#5).toNat / 2 % 4 = 3 ∧ (0x10#5).toNat / 2 % 4 ≠ 3) := by
  refine ⟨⟨_, _, _, ?_, rfl, rfl, rfl⟩, ⟨_, ?_, rfl, rfl⟩, ⟨_, rfl, rfl, by decide, by decide⟩⟩
  · exact ⟨by decide, by decide, by decide, by decide, by decide, by decide, by decide⟩
  · exact ⟨by decide, by decide, by decide, by decide, by decide, by decide, by decide⟩

/-- A step that performs an INSERT, and one that holds (OneResponsePerCommandInAcceptanceOrder, EveryStepKeepsTheInvariant,
BlockBitsOnlyRiseBetweenResets with a changed word, NoStepChangesTheBuild). -/
theorem witness_step_that_inserts : busy.Inv ∧ busy.nextResetFree = true ∧
    ∃ t, step busy = .next t ∧ Memory.read t.blk 1 ≠ Memory.read busy.blk 1 ∧
      (Memory.read busy.blk 1).getLsbD 16 = true ∧ t.acceptIndex = 1 := by
  refine ⟨busy_inv, by decide, ?_⟩
  obtain ⟨t, ht, h⟩ := nextIs_elim (o := step busy)
    (p := fun t => decide (Memory.read t.blk 1 ≠ Memory.read busy.blk 1 ∧ t.acceptIndex = 1)) (by decide)
  rw [decide_eq_true_eq] at h
  exact ⟨t, ht, h.1, by decide, h.2⟩

theorem witness_step_that_holds : (withHost busy [] [.accept]).nextResetFree = true ∧
    ∃ t, step (withHost busy [] [.accept]) = .next t ∧ t.acceptIndex = 0 := by
  refine ⟨by decide, ?_⟩
  obtain ⟨t, ht, h⟩ := nextIs_elim (o := step (withHost busy [] [.accept])) (p := fun t => decide (t.acceptIndex = 0)) (by decide)
  exact ⟨t, ht, by simpa using h⟩

/-- EveryRunIsSafe and the statements whose one hypothesis is the invariant. -/
theorem witness_invariant : busy.Inv ∧ broken.Inv ∧ saturated.Inv ∧ State.reset.Inv :=
  ⟨busy_inv, broken_inv, saturated_inv, reset_inv⟩

theorem witness_BlockIndexIsTheMultiplyHigh :
    (0x4000000000000001#64).toNat / 2 ^ 32 = (0x40000000FFFFFFFF#64).toNat / 2 ^ 32 := by decide

theorem witness_BlockIndexIsAlwaysInRange :
    (1#32 : Word32) ≠ 0#32 ∧ (0xFFFFFFFF#32 : Word32) ≠ 0#32 ∧ (0#32).toNat ≤ (0xFFFFFFFF#32).toNat := by decide

theorem witness_BlockIndexIsUniform : 0 < (3#32).toNat ∧ 2 < (3#32).toNat := by decide

theorem witness_BitIndexIsTheTopFiveBitsOfTheProduct : (0x4000000080000000#64).toNat % 2 ^ 32 = 0x80000000 := by decide

theorem witness_DeriverValuesAtSpecialInputs :
    (demoConfig.salt 1).toNat % 4 = 1 ∧ (demoConfig.salt 0).toNat % 4 = 3 := by decide

theorem witness_LaneMaskHasOneBitInEachLane : (0xFFFFFFFF00000000#64).toNat % 2 ^ 32 = 0 ∧ 0 < 32 ∧ 31 < 32 := by decide

theorem witness_BlockViewsAgree :
    (0 : Fin 8).val = 2 * (0 : Fin 4).val ∧ (1 : Fin 8).val = 2 * (0 : Fin 4).val + 1 ∧
    (6 : Fin 8).val = 2 * (3 : Fin 4).val ∧ (7 : Fin 8).val = 2 * (3 : Fin 4).val + 1 ∧ 31 < 32 ∧ 7 < 8 := by decide

theorem witness_MemoriesThatReadAlikeAreEqual :
    Memory.wf [(0, blockA), (3, blockC)] = true ∧ ∀ i, Memory.read [(0, blockA), (3, blockC)] i = Memory.read [(0, blockA), (3, blockC)] i :=
  ⟨by decide, fun _ => rfl⟩

/-- Bits of a hash all set, and not (InsertSetsItsEightBitsAndNothingElse, QueryAnswersWhetherAllEightBitsAreSet). -/
theorem witness_InsertSetsItsEightBitsAndNothingElse :
    busy.Inv ∧ busy.cfgErr = false ∧ broken.Inv ∧ broken.cfgErr = true ∧
    (∀ j : Fin 8, (Memory.read busy.blk (selectedBlock busy 0x0000000000000000#64).toNat).getLsbD
      (32 * j.val + specBit busy.config 0x0000000000000000#64 j) = true) ∧
    3 ≠ (selectedBlock busy 0x0000000000000000#64).toNat :=
  ⟨busy_inv, by decide, broken_inv, by decide, by decide, by decide⟩

theorem witness_EmptyFilterMissesAndSaturatedBlockHits :
    (afterReset demoConfig 64#32).cfgErr = false ∧ saturated.Inv ∧ saturated.cfgErr = false ∧
    Memory.read saturated.blk (specIndex saturated.numBlocks 0x8000000012345678#64) = BitVec.allOnes 256 :=
  ⟨by decide, saturated_inv, by decide, by decide⟩

/-- A reset action may wait behind the steps. -/
def busyThenReset : State := withTurns busy (busy.host.turns ++ [.reset 4#32])

theorem witness_NoFalseNegatives : ∃ t u, busyThenReset.Inv ∧ performedInsert busyThenReset = some 0x4000000012345678#64 ∧
    step busyThenReset = .next t ∧ t.resetFree 4 = true ∧ t.resetFree 5 = false ∧ Reaches t 4 u := by
  obtain ⟨t, ht, h⟩ := nextIs_elim (o := step busyThenReset)
    (p := fun t => t.resetFree 4 && !t.resetFree 5 && runIs t 4 fun _ => true) (by decide)
  simp only [Bool.and_eq_true, Bool.not_eq_true'] at h
  obtain ⟨u, hu, _⟩ := runIs_elim h.2
  exact ⟨t, u, ⟨by decide, by decide, by decide, by decide, by decide, by decide, by decide⟩, by decide, ht, h.1.1, h.1.2, hu⟩

theorem witness_MatchesNeverShrinkBetweenResets : ∃ t, busy.Inv ∧ busy.resetFree 5 = true ∧ Reaches busy 5 t ∧
    AnswersMatch busy 0x0000000000000000#64 := by
  obtain ⟨t, ht, _⟩ := runIs_elim (s := busy) (k := 5) (p := fun _ => true) (by decide)
  obtain ⟨u, hu, h⟩ := nextIs_elim (o := exec (.query 0x0000000000000000#64) busy)
    (p := fun u => decide (u.rspq = busy.rspq ++ [responseWord opQuery .ok true])) (by decide)
  exact ⟨t, busy_inv, by decide, ht, u, hu, by simpa using h⟩

theorem witness_InsertsCommuteAndAreIdempotent : busy.Inv ∧ busy.cfgErr = false ∧
    ∀ h : Hash, h ∈ [(1#64 : Hash), 2#64] ↔ h ∈ [(2#64 : Hash), 1#64, 2#64] := by
  refine ⟨busy_inv, by decide, fun h => ?_⟩
  simp only [List.mem_cons, List.not_mem_nil, or_false]
  tauto

/-- Block A in word 0 is what the hash 0 leaves (L2-4 I1), whatever the salts. -/
theorem holding_A_represents_zero : Represents (holding [(0, blockA)]) [0x0000000000000000#64] := by
  intro i
  cases i with
  | zero => decide
  | succ i => rfl

theorem witness_QueryHasTheClosedFormOfTheInsertedHashes :
    (holding [(0, blockA)]).Inv ∧ (holding [(0, blockA)]).cfgErr = false ∧
    Represents (holding [(0, blockA)]) [0x0000000000000000#64] ∧ Represents (demo 4#32) [] ∧ (demo 4#32).Inv ∧
    (withHost (demo 4#32) [0x20000000000000000#66] [.accept]).nextResetFree = true ∧
    (∃ t, step (withHost (demo 4#32) [0x20000000000000000#66] [.accept]) = .next t) ∧
    (∃ cfg ts, (withHost busy [] [.reset 0#32]).host.turns = .reset cfg :: ts) := by
  refine ⟨?_, by decide, holding_A_represents_zero, fun _ => rfl, ?_, by decide, ?_, ⟨_, _, rfl⟩⟩
  · exact ⟨by decide, by decide, by decide, by decide, by decide, by decide, by decide⟩
  · exact ⟨by decide, by decide, by decide, by decide, by decide, by decide, by decide⟩
  · obtain ⟨t, ht, _⟩ := nextIs_elim (o := step (withHost (demo 4#32) [0x20000000000000000#66] [.accept]))
      (p := fun _ => true) (by decide)
    exact ⟨t, ht⟩

theorem witness_QueryHasNoSideEffectAndInsertIsIdempotent :
    (withHost busy [0x14000000012345678#66] [.accept]).nextResetFree = true ∧
    performedInsert (withHost busy [0x14000000012345678#66] [.accept]) = none ∧
    (∃ t, step (withHost busy [0x14000000012345678#66] [.accept]) = .next t) ∧
    (∃ t, exec (.query 0x4000000012345678#64) busy = .next t) ∧ busy.Inv := by
  refine ⟨by decide, by decide, ?_, ?_, busy_inv⟩
  · obtain ⟨t, ht, _⟩ := nextIs_elim (o := step (withHost busy [0x14000000012345678#66] [.accept])) (p := fun _ => true) (by decide)
    exact ⟨t, ht⟩
  · obtain ⟨t, ht, _⟩ := nextIs_elim (o := exec (.query 0x4000000012345678#64) busy) (p := fun _ => true) (by decide)
    exact ⟨t, ht⟩

/-- Two engines that differ in blocks the hash does not select. -/
theorem witness_CommandsReadOneBlockWordOnly :
    busy.Inv ∧ saturated.Inv ∧ saturated.config = busy.config ∧ saturated.numBlocks = busy.numBlocks ∧
    saturated.cfgErr = busy.cfgErr ∧ saturated.blk ≠ busy.blk ∧
    Memory.read saturated.blk (specIndex busy.numBlocks 0xFFFFFFFF00000000#64) =
      Memory.read busy.blk (specIndex busy.numBlocks 0xFFFFFFFF00000000#64) :=
  ⟨busy_inv, saturated_inv, by decide, by decide, by decide, by decide, by decide⟩

theorem witness_ReservedCommandsAnswerIllegalOp :
    (∃ w ws ts, broken.host.turns = .accept :: ts ∧ broken.host.stream = w :: ws ∧ w.toNat / 2 ^ 64 = 3) ∧ cmdReady broken = true ∧
    (∃ w ws ts, (withHost busy [0#66] [.accept]).host.turns = .accept :: ts ∧
      (withHost busy [0#66] [.accept]).host.stream = w :: ws ∧ w.toNat / 2 ^ 64 = 0) ∧
    cmdReady (withHost busy [0#66] [.accept]) = true :=
  ⟨⟨_, _, _, rfl, rfl, by decide⟩, by decide, ⟨_, _, _, rfl, rfl, by decide⟩, by decide⟩

theorem witness_ConfigurationErrorAnswersEveryCommand : broken.cfgErr = true ∧
    ∃ t, step (withHost broken [] [.reset 64#32]) = .next t ∧ t.cfgErr ≠ broken.cfgErr :=
  ⟨by decide, _, rfl, by decide⟩

theorem witness_StatusReadDeliversTheMapAndChangesNothing : busy.rstN = true ∧
    (0x0#4).toNat = 0 ∧ (0x1#4).toNat = 1 ∧ (0x2#4).toNat = 2 ∧ 3 ≤ (0x3#4).toNat ∧ 3 ≤ (0xF#4).toNat := by decide

theorem witness_StatusReadDuringResetDeliversSomeValue : held.rstN = false := by decide

theorem witness_ResetBuildsAnEmptyFilter :
    (∃ ts, (withHost busy [] [.reset 0#32]).host.turns = .reset 0#32 :: ts) ∧
    (∃ ts, (withHost busy [] [.reset 65#32]).host.turns = .reset 65#32 :: ts) := ⟨⟨_, rfl⟩, ⟨_, rfl⟩⟩

theorem witness_ResetForgetsWhatWasInFlight : ∃ cfg ts,
    (withHost busy [] [.reset 0#32]).host.turns = .reset cfg :: ts ∧
    (withHost saturated [] [.reset 0#32]).config = (withHost busy [] [.reset 0#32]).config ∧
    (withHost saturated [] [.reset 0#32]).host = (withHost busy [] [.reset 0#32]).host ∧
    (withHost saturated [] [.reset 0#32]).freeReads = (withHost busy [] [.reset 0#32]).freeReads ∧
    (withHost saturated [] [.reset 0#32]).rspq ≠ (withHost busy [] [.reset 0#32]).rspq :=
  ⟨_, _, rfl, by decide, by decide, by decide, by decide⟩

theorem witness_HeldInResetNothingIsAcceptedOrPresented :
    (∃ ts, (withHost busy [] [.holdReset]).host.turns = .holdReset :: ts) ∧ held.rstN = false ∧ held.nextResetFree = true ∧
    ∃ t, step held = .next t := by
  refine ⟨⟨_, rfl⟩, by decide, by decide, ?_⟩
  obtain ⟨t, ht, _⟩ := nextIs_elim (o := step held) (p := fun _ => true) (by decide)
  exact ⟨t, ht⟩

theorem witness_BootReadsBackTheConfiguration :
    (withHost broken [] (bootTurns 0#32 ++ [.accept])).host.turns = bootTurns 0#32 ++ [.accept] ∧
    (withHost busy [] (bootTurns 65#32)).host.turns = bootTurns 65#32 ++ [] := by decide

theorem witness_DrainingHostHasEveryCommandAnswered : (withHost busy busy.host.stream (drainTurns 1 2)).Inv ∧
    busy.rstN = true ∧ (withHost busy busy.host.stream (drainTurns 1 2)).host.turns =
      drainTurns (withHost busy busy.host.stream (drainTurns 1 2)).rspq.length
        (withHost busy busy.host.stream (drainTurns 1 2)).host.stream.length :=
  ⟨⟨by decide, by decide, by decide, by decide, by decide, by decide, by decide⟩, by decide, by decide⟩

theorem witness_IllegalBuildsAreRefused :
    ({ rawGood with salts := [] } : RawConfig).saltsLegal = false ∧
    rawGood.saltsLegal = true ∧ ({ rawGood with maxBlocks := 0 } : RawConfig).capacityLegal = false ∧
    rawGood.capacityLegal = true ∧ ({ rawGood with rspDepth := 0 } : RawConfig).depthLegal = false ∧ rawGood.wf = true ∧
    (0 : Fin 8) ≠ 7 := by decide

theorem witness_SizingIsTheCeilingAndNeverZero :
    sizing 1000 10 = .ok 40#32 ∧ sizing 109951162752 10 = .ok 0xFFFFFFFF#32 ∧ 2 ^ 32 - 1 < sizedBlocks 109951162753 10 := by
  refine ⟨rfl, rfl, by decide⟩

theorem witness_EveryRateHasOneBitsPerKey :
    (∃ b, IsBitsPerKey (some (1 / 2)) b) ∧ (0 : ℝ) < 1 / 2 ∧ (1 / 2 : ℝ) < 1 ∧
    IsBitsPerKey (some 0) 10 ∧ IsBitsPerKey (some 1) 10 := by
  refine ⟨⟨⌈-Real.log (1 / 2) / Real.log 2 ^ 2⌉.toNat, fun _ => ?_, fun h => absurd (by norm_num) h⟩, by norm_num, by norm_num,
    ⟨fun h => absurd h.1 (lt_irrefl _), fun _ => rfl⟩, ⟨fun h => absurd h.2 (lt_irrefl _), fun _ => rfl⟩⟩
  apply Int.toNat_of_nonneg
  apply Int.ceil_nonneg
  have h1 : Real.log (1 / 2) < 0 := Real.log_neg (by norm_num) (by norm_num)
  have h2 : 0 < Real.log 2 := Real.log_pos (by norm_num)
  exact div_nonneg (by linarith) (by positivity)

/-- L2-9: the rate 0.5 takes 2 bits per key. -/
theorem test_bits_per_key_half : IsBitsPerKey (some (1 / 2)) 2 := by
  refine ⟨fun _ => ?_, fun h => absurd (by norm_num) h⟩
  have h1 : 0.6931471803 < Real.log 2 := Real.log_two_gt_d9
  have h2 : Real.log 2 < 0.6931471808 := Real.log_two_lt_d9
  have h3 : -Real.log (1 / 2) / Real.log 2 ^ 2 = 1 / Real.log 2 := by
    rw [one_div, Real.log_inv]
    field_simp
  rw [h3, eq_comm, Int.ceil_eq_iff, lt_div_iff₀ (by linarith), div_le_iff₀ (by linarith)]
  push_cast
  constructor <;> linarith

/-- Two orders of the same commands, both to the end of the run. -/
theorem witness_ObservationDoesNotDependOnTheInterleaving :
    ∃ s s' t t', s' = { s with host := { s.host with turns := s'.host.turns } } ∧ s.host.turns ≠ s'.host.turns ∧
      s.resetFree 4 = true ∧ s'.resetFree 5 = true ∧ Reaches s 4 t ∧ Reaches s' 5 t' ∧ runEnded t = true ∧ runEnded t' = true := by
  obtain ⟨t, ht, h⟩ := runIs_elim (s := withHost (demo 4#32) [0x20000000000000000#66, 0x10000000000000000#66]
    [.accept, .take, .accept, .take]) (k := 4) (p := runEnded) (by decide)
  obtain ⟨t', ht', h'⟩ := runIs_elim (s := withHost (demo 4#32) [0x20000000000000000#66, 0x10000000000000000#66]
    [.take, .accept, .accept, .take, .take]) (k := 5) (p := runEnded) (by decide)
  exact ⟨_, _, t, t', rfl, by decide, by decide, by decide, ht, ht', h, h'⟩

/-- A run from a reset that follows an earlier run: a reset action, one INSERT, its response taken. -/
theorem witness_RunFromAResetObservesItsOwnResponses :
    ∃ s u t, s.host.turns = .reset 4#32 :: [.accept, .take] ∧ s.host.taken = [0x09#5] ∧ step s = .next u ∧
      u.resetFree 2 = true ∧ Reaches u 2 t ∧ runEnded t = true := by
  obtain ⟨u, hu, h⟩ := nextIs_elim
    (o := step { demo 4#32 with host := { HostAgent.idle with
      stream := [0x20000000000000000#66], turns := [.reset 4#32, .accept, .take], taken := [0x09#5] } })
    (p := fun u => u.resetFree 2 && runIs u 2 runEnded) (by decide)
  rw [Bool.and_eq_true] at h
  obtain ⟨t, ht, h'⟩ := runIs_elim h.2
  exact ⟨_, u, t, rfl, rfl, hu, h.1, ht, h'⟩

/-- The states of a host that offers one INSERT and takes its response, and then goes on taking turns with nothing to do. -/
def fairRun : Nat → State
  | 0 => withHost (demo 4#32) [0x20000000000000000#66] []
  | 1 => { demo 4#32 with blk := [(0, blockA)], rspq := [0x10#5], acceptIndex := 1 }
  | _ + 2 => { demo 4#32 with blk := [(0, blockA)], acceptIndex := 1, host := { HostAgent.idle with taken := [0x10#5] } }

/-- Accept and take in turn. -/
def alternating (n : Nat) : Turn := if n % 2 = 0 then .accept else .take

/-- The two steps take turns for ever, so every run of this order is weakly fair, and every response is taken. -/
theorem alternating_is_fair (run : Nat → State) : WeaklyFair run alternating ∧ TakesEveryResponse run alternating := by
  have take : ∀ n, ∃ m, n ≤ m ∧ alternating m = .take := fun n => ⟨2 * n + 1, by omega, by simp [alternating]⟩
  exact ⟨⟨fun n _ => ⟨2 * n, by omega, by simp [alternating]⟩, fun n _ => take n⟩, fun n _ => take n⟩

theorem witness_EveryFairRunAnswersEveryCommand : EndlessRun fairRun alternating ∧ (fairRun 0).Inv ∧ (fairRun 0).rstN = true ∧
    (∀ n, (alternating n).atPort = true) ∧ WeaklyFair fairRun alternating ∧ TakesEveryResponse fairRun alternating := by
  refine ⟨?_, ⟨by decide, by decide, by decide, by decide, by decide, by decide, by decide⟩, rfl, ?_,
    (alternating_is_fair _).1, (alternating_is_fair _).2⟩
  · intro n
    match n with
    | 0 => rfl
    | 1 => rfl
    | n + 2 =>
      obtain h | h : alternating (n + 2) = .accept ∨ alternating (n + 2) = .take := by unfold alternating; split <;> simp
      · rw [h]; rfl
      · rw [h]; rfl
  · intro n
    unfold alternating
    split <;> rfl

end Sys2Proof.Tests
end

section
/-! The state across a step (10_state.md): what a step can do to the engine, the invariant kept by every step (R24, R25, R27,
R28), the block words between two resets (R34), the build (R26, R29), and the canonical form of the block memory. -/

namespace Sys2Proof.Machine

/-! ### What a step can do to the engine -/

/-- The engine is as before, except that responses may have left RSPQ. -/
structure KeepsEngine (s t : State) : Prop where
  config : t.config = s.config
  blk : t.blk = s.blk
  numBlocks : t.numBlocks = s.numBlocks
  cfgErr : t.cfgErr = s.cfgErr
  rspq : t.rspq.Sublist s.rspq

/-- R60, R161: only an accepted command and a reset action do more to the engine than take a response from RSPQ. -/
theorem step_engine_cases {s t : State} (h : step s = .next t) :
    KeepsEngine s t ∨
    (∃ ts w, s.host.turns = .accept :: ts ∧ cmdReady s = true ∧ s.host.stream.head? = some w ∧
      exec (decode (.command w)) (consumeCommand (popTurn s)) = .next t) ∨
    (∃ cfg ts, s.host.turns = .reset cfg :: ts ∧ t = beginRun (resetInit cfg (popTurn s))) := by
  rcases step_cases h with ⟨_, rfl⟩ | ⟨ts, ht, ⟨_, rfl⟩ | ⟨w, hr, hw, he⟩⟩ | ⟨_, _, ⟨_, rfl⟩ | ⟨_, _, rfl⟩⟩ |
    ⟨a, _, _, rfl⟩ | ⟨_, _, rfl⟩ | ⟨cfg, ts, ht, rfl⟩
  · exact .inl ⟨rfl, rfl, rfl, rfl, .refl _⟩
  · exact .inl ⟨rfl, rfl, rfl, rfl, .refl _⟩
  · exact .inr (.inl ⟨ts, w, ht, hr, hw, he⟩)
  · exact .inl ⟨rfl, rfl, rfl, rfl, .refl _⟩
  · exact .inl ⟨rfl, rfl, rfl, rfl, List.tail_sublist _⟩
  · rw [readPort_eq]
    exact .inl ⟨rfl, rfl, rfl, rfl, .refl _⟩
  · exact .inl ⟨rfl, rfl, rfl, rfl, .refl _⟩
  · exact .inr (.inr ⟨cfg, ts, ht, rfl⟩)

/-- A command changes no build parameter, NUM_BLOCKS or CFG_ERR. -/
theorem exec_command_registers {w : CmdWord} {s t : State} (h : exec (decode (.command w)) s = .next t) :
    t.config = s.config ∧ t.numBlocks = s.numBlocks ∧ t.cfgErr = s.cfgErr := by
  rcases exec_command_cases h with ⟨op, st, hit, rfl⟩ | ⟨hash, _, _, _, rfl⟩
  · exact ⟨rfl, rfl, rfl⟩
  · exact ⟨rfl, rfl, rfl⟩

/-- A step whose turn is a reset action is not reset-free. -/
theorem nextResetFree_of_reset {s : State} {cfg : Word32} {ts : List Turn} (h : s.host.turns = .reset cfg :: ts) :
    s.nextResetFree = false := by
  simp [State.nextResetFree, h, Turn.isResetFree]

/-! ### The responses of commands (R144) -/

theorem legalResponse_query_ok (hit : Bool) : legalResponse (responseWord opQuery .ok hit) = true := by
  cases hit <;> decide

theorem legalResponse_cfgErr (op : OpField) : legalResponse (responseWord op .cfgErr false) = true := by
  revert op; decide

/-- R120, R143: both answers to a reserved command are the engine's. -/
theorem legalResponse_reserved {op : OpField} (h : op = opReserved00 ∨ op = opReserved11) (cfgErr : Bool) :
    legalResponse (responseWord op (if cfgErr then .cfgErr else .illegalOp) false) = true := by
  rcases h with rfl | rfl <;> cases cfgErr <;> decide

/-- R63: the decoder's four cases, with the OP field of each. -/
theorem decode_command_cases (w : CmdWord) :
    (opField w = opQuery ∧ decode (.command w) = .query (hashField w)) ∨
    (opField w = opInsert ∧ decode (.command w) = .insert (hashField w)) ∨
    (opField w = opReserved00 ∧ decode (.command w) = .reserved00 (hashField w)) ∨
    (opField w = opReserved11 ∧ decode (.command w) = .reserved11 (hashField w)) := by
  have four : ∀ op : OpField, op = opQuery ∨ op = opInsert ∨ op = opReserved00 ∨ op = opReserved11 := by decide
  rcases four (opField w) with ho | ho | ho | ho
  · exact .inl ⟨ho, by simp [decode, decodeCommand, ho]⟩
  · exact .inr (.inl ⟨ho, by simp [decode, decodeCommand, ho, opInsert, opQuery]⟩)
  · exact .inr (.inr (.inl ⟨ho, by simp [decode, decodeCommand, ho, opReserved00, opInsert, opQuery]⟩))
  · exact .inr (.inr (.inr ⟨ho, by simp [decode, decodeCommand, ho, opReserved11, opReserved00, opInsert, opQuery]⟩))

/-- R10, R144: `t` has one response more in RSPQ, with this OP, and one that the engine produces. -/
def AnswersLegally (op : OpField) (s t : State) : Prop :=
  ∃ st hit, t.rspq = s.rspq ++ [responseWord op st hit] ∧ legalResponse (responseWord op st hit) = true

theorem execQuery_answersLegally {hash : Hash} {s t : State} (h : execQuery hash s = .next t) :
    AnswersLegally opQuery s t := by
  cases hc : s.cfgErr with
  | true => rw [execQuery_cfgErr hc] at h; cases h; exact ⟨_, _, rfl, legalResponse_cfgErr _⟩
  | false =>
    cases ha : accessible s (selectedBlock s hash) with
    | true => rw [execQuery_ok hc ha] at h; cases h; exact ⟨_, _, rfl, legalResponse_query_ok _⟩
    | false => rw [execQuery_fault hc ha] at h; cases h

theorem execInsert_answersLegally {hash : Hash} {s t : State} (h : execInsert hash s = .next t) :
    AnswersLegally opInsert s t := by
  cases hc : s.cfgErr with
  | true => rw [execInsert_cfgErr hc] at h; cases h; exact ⟨_, _, rfl, legalResponse_cfgErr _⟩
  | false =>
    cases ha : accessible s (selectedBlock s hash) with
    | true => rw [execInsert_ok hc ha] at h; cases h; exact ⟨_, _, rfl, by decide⟩
    | false => rw [execInsert_fault hc ha] at h; cases h

theorem answerReserved_answersLegally {op : OpField} (ho : op = opReserved00 ∨ op = opReserved11) (s : State) :
    AnswersLegally op s (answerReserved op s) := by
  rw [answerReserved_eq]
  exact ⟨_, _, rfl, legalResponse_reserved ho _⟩

/-- R47, R144: a command appends one response, with its own OP, and one that the engine produces. -/
theorem exec_command_answersLegally {w : CmdWord} {s t : State} (h : exec (decode (.command w)) s = .next t) :
    AnswersLegally (opField w) s t := by
  rcases decode_command_cases w with ⟨ho, hd⟩ | ⟨ho, hd⟩ | ⟨ho, hd⟩ | ⟨ho, hd⟩
  · rw [hd] at h; rw [ho]
    exact execQuery_answersLegally h
  · rw [hd] at h; rw [ho]
    exact execInsert_answersLegally h
  · rw [hd] at h; cases h; rw [ho]
    exact answerReserved_answersLegally (.inl rfl) s
  · rw [hd] at h; cases h; rw [ho]
    exact answerReserved_answersLegally (.inr rfl) s

/-! ### The invariant, operation by operation -/

theorem State.Inv.of_keepsEngine {s t : State} (h : s.Inv) (k : KeepsEngine s t) : t.Inv where
  numBlocks_ne_zero := by rw [k.numBlocks]; exact h.numBlocks_ne_zero
  cfgErr_eq := by rw [k.cfgErr, k.config, k.numBlocks]; exact h.cfgErr_eq
  blk_wf := by rw [k.blk]; exact h.blk_wf
  blk_below := by rw [k.blk, k.numBlocks]; exact h.blk_below
  blk_empty := by rw [k.cfgErr, k.blk]; exact h.blk_empty
  rspq_bounded := by rw [k.config]; exact k.rspq.length_le.trans h.rspq_bounded
  rspq_legal r hr := h.rspq_legal r (k.rspq.subset hr)

theorem State.Inv.consumeCommand_popTurn {s : State} (h : s.Inv) : (consumeCommand (popTurn s)).Inv :=
  h.of_keepsEngine ⟨rfl, rfl, rfl, rfl, .refl _⟩

/-- R27: a legal response for which RSPQ has room. -/
theorem State.Inv.respond {s : State} (h : s.Inv) {op : OpField} {st : Status} {hit : Bool}
    (room : s.rspq.length < s.config.rspDepth) (legal : legalResponse (responseWord op st hit) = true) :
    (respond op st hit s).Inv where
  numBlocks_ne_zero := h.numBlocks_ne_zero
  cfgErr_eq := h.cfgErr_eq
  blk_wf := h.blk_wf
  blk_below := h.blk_below
  blk_empty := h.blk_empty
  rspq_bounded := by simpa using room
  rspq_legal r hr := by
    rcases List.mem_append.mp hr with hr | hr
    · exact h.rspq_legal r hr
    · rwa [List.mem_singleton.mp hr]

/-- R42, R141: a store below NUM_BLOCKS with CFG_ERR = 0. -/
theorem State.Inv.storeBlock {s : State} (h : s.Inv) {idx : Word32} (hc : s.cfgErr = false)
    (below : idx.toNat < s.numBlocks.toNat) (v : Block) : (storeBlock s idx v).Inv where
  numBlocks_ne_zero := h.numBlocks_ne_zero
  cfgErr_eq := h.cfgErr_eq
  blk_wf := Memory.wf_write h.blk_wf _ _
  blk_below cell hcell := by
    rcases Memory.mem_write hcell with hi | hm
    · rw [hi]; exact below
    · exact h.blk_below cell hm
  blk_empty he := absurd he (by simp [hc])
  rspq_bounded := h.rspq_bounded
  rspq_legal := h.rspq_legal

/-- R24: the value 0 cannot be held. -/
theorem coerceBlocks_ne_zero (cfg : Word32) : coerceBlocks cfg ≠ 0#32 := by
  unfold coerceBlocks
  split
  · decide
  · assumption

/-- R161: the initialisation establishes the invariant, whatever the state before. -/
theorem resetInit_inv (cfg : Word32) (s : State) : (resetInit cfg s).Inv where
  numBlocks_ne_zero := coerceBlocks_ne_zero cfg
  cfgErr_eq := rfl
  blk_wf := rfl
  blk_below := by simp
  blk_empty _ := rfl
  rspq_bounded := by simp
  rspq_legal := by simp

theorem beginRun_inv {s : State} (h : s.Inv) : (beginRun s).Inv :=
  h.of_keepsEngine ⟨rfl, rfl, rfl, rfl, .refl _⟩

/-- A command performed with room in RSPQ keeps the invariant. -/
theorem exec_command_keeps_inv {w : CmdWord} {s t : State} (h : s.Inv) (room : s.rspq.length < s.config.rspDepth)
    (he : exec (decode (.command w)) s = .next t) : t.Inv := by
  rcases exec_command_cases he with ⟨op, st, hit, rfl⟩ | ⟨hash, _, hc, ha, rfl⟩
  · obtain ⟨st', hit', hr, legal⟩ := exec_command_answersLegally he
    have same : responseWord op st hit = responseWord (opField w) st' hit' := by simpa using hr
    exact h.respond room (same ▸ legal)
  · exact (h.storeBlock hc (accessible_iff.mp ha).1 _).respond room (by decide)

/-- Settles O12: a step takes a response at most, performs an accepted command, or resets, and each keeps the invariant. -/
theorem everyStepKeepsTheInvariant : Obligations.EveryStepKeepsTheInvariant := by
  intro s t hs h
  rcases step_engine_cases h with k | ⟨ts, w, _, ready, _, he⟩ | ⟨cfg, ts, _, rfl⟩
  · exact hs.of_keepsEngine k
  · exact exec_command_keeps_inv hs.consumeCommand_popTurn (cmdReady_iff.mp ready).2 he
  · exact beginRun_inv (resetInit_inv cfg _)

/-- Settles O15: neither a command nor a reset action writes the build. -/
theorem noStepChangesTheBuild : Obligations.NoStepChangesTheBuild := by
  intro s t h
  rcases step_engine_cases h with k | ⟨ts, w, _, _, _, he⟩ | ⟨cfg, ts, _, rfl⟩
  · exact k.config
  · exact (exec_command_registers he).1
  · rfl

/-! ### The block memory between resets (R34) -/

/-- Between resets no step writes NUM_BLOCKS or CFG_ERR. -/
theorem step_registers_of_resetFree {s t : State} (hf : s.nextResetFree = true) (h : step s = .next t) :
    t.numBlocks = s.numBlocks ∧ t.cfgErr = s.cfgErr := by
  rcases step_engine_cases h with k | ⟨ts, w, _, _, _, he⟩ | ⟨cfg, ts, ht, _⟩
  · exact ⟨k.numBlocks, k.cfgErr⟩
  · exact (exec_command_registers he).2
  · simp [nextResetFree_of_reset ht] at hf

/-- Between resets the block memory stays, or the step performs an INSERT, which ORs its mask into its block word. -/
theorem step_blk_of_resetFree {s t : State} (hf : s.nextResetFree = true) (h : step s = .next t) :
    t.blk = s.blk ∨ ∃ hash, performedInsert s = some hash ∧
      t.blk = Memory.write s.blk (selectedBlock s hash).toNat
        (Memory.read s.blk (selectedBlock s hash).toNat ||| laneMask s.config (loOf hash)) := by
  rcases step_engine_cases h with k | ⟨ts, w, ht, ready, hw, he⟩ | ⟨cfg, ts, ht, _⟩
  · exact .inl k.blk
  · rcases exec_command_cases he with ⟨op, st, hit, rfl⟩ | ⟨hash, hd, hc, _, rfl⟩
    · exact .inl rfl
    · exact .inr ⟨hash, performedInsert_eq_some.mpr ⟨ts, w, ht, hw, hd, ready, hc⟩, rfl⟩
  · simp [nextResetFree_of_reset ht] at hf

/-- A word written with more bits set loses none, and no other word changes. -/
theorem Memory.getLsbD_read_write_or {m : Memory} (hm : Memory.wf m = true) (i : Nat) (v : Block) {j k : Nat}
    (h : (Memory.read m j).getLsbD k = true) :
    (Memory.read (Memory.write m i (Memory.read m i ||| v)) j).getLsbD k = true := by
  rw [Memory.read_write hm]
  split
  · next hj => subst hj; simp [h]
  · exact h

/-- Settles O14: the one write between resets is that of an INSERT, and it ORs a mask into the old word. -/
theorem blockBitsOnlyRiseBetweenResets : Obligations.BlockBitsOnlyRiseBetweenResets := by
  intro s t hs hf h
  obtain ⟨hn, hc⟩ := step_registers_of_resetFree hf h
  have capacity : csr t 0x2#4 = csr s 0x2#4 := congrArg Config.maxBlocks (noStepChangesTheBuild s t h)
  rcases step_blk_of_resetFree hf h with hb | ⟨hash, hp, hb⟩
  · rw [hb]
    exact ⟨fun _ _ hbit => hbit, fun _ changed => absurd rfl changed, hn, hc, capacity⟩
  · rw [hb]
    exact ⟨fun _ _ hbit => Memory.getLsbD_read_write_or hs.blk_wf _ _ hbit, fun _ _ => ⟨hash, hp⟩, hn, hc, capacity⟩

/-! ### Canonical memories (R28) -/

/-- The first listed word of a canonical memory is not 0. -/
theorem Memory.read_head_ne_zero {lo a : Nat} {v : Block} {m : Memory} (hm : Memory.wfFrom lo ((a, v) :: m) = true) :
    Memory.read ((a, v) :: m) a ≠ 0#256 := by
  rw [Memory.read_cons, if_pos rfl]
  exact (Memory.wfFrom_cons.mp hm).2.1

/-- No index with a word that is not 0 is below the first listed one. -/
theorem Memory.head_le_of_read_ne_zero {lo a i : Nat} {v : Block} {m : Memory}
    (hm : Memory.wfFrom lo ((a, v) :: m) = true) (hi : Memory.read ((a, v) :: m) i ≠ 0#256) : a ≤ i := by
  by_contra hlt
  have fromHead : Memory.wfFrom a ((a, v) :: m) = true := Memory.wfFrom_cons.mpr ⟨le_rfl, (Memory.wfFrom_cons.mp hm).2⟩
  exact hi (Memory.read_of_lt fromHead (by omega))

/-- Canonical memories that read alike list the same first index, the same first word, and tails that read alike. -/
theorem Memory.eq_of_read_eq {lo : Nat} {m m' : Memory} (hm : Memory.wfFrom lo m = true)
    (hm' : Memory.wfFrom lo m' = true) (h : ∀ i, Memory.read m i = Memory.read m' i) : m = m' := by
  induction m generalizing lo m' with
  | nil =>
    cases m' with
    | nil => rfl
    | cons c' m' => exact absurd (h c'.1).symm (Memory.read_head_ne_zero hm')
  | cons c m ih =>
    cases m' with
    | nil => exact absurd (h c.1) (Memory.read_head_ne_zero hm)
    | cons c' m' =>
      obtain ⟨a, v⟩ := c
      obtain ⟨a', v'⟩ := c'
      have index : a = a' := le_antisymm
        (Memory.head_le_of_read_ne_zero hm (h a' ▸ Memory.read_head_ne_zero hm'))
        (Memory.head_le_of_read_ne_zero hm' (h a ▸ Memory.read_head_ne_zero hm))
      subst index
      have word : v = v' := by simpa [Memory.read_cons] using h a
      obtain ⟨_, _, tail⟩ := Memory.wfFrom_cons.mp hm
      obtain ⟨_, _, tail'⟩ := Memory.wfFrom_cons.mp hm'
      have rest : ∀ i, Memory.read m i = Memory.read m' i := by
        intro i
        by_cases hi : i = a
        · rw [Memory.read_of_lt tail (by omega), Memory.read_of_lt tail' (by omega)]
        · simpa [Memory.read_cons, hi] using h i
      rw [word, ih tail tail' rest]

/-- Settles O25, by induction on the two lists from their common lower bound 0. -/
theorem memoriesThatReadAlikeAreEqual : Obligations.MemoriesThatReadAlikeAreEqual :=
  fun _ _ hm hm' h => Memory.eq_of_read_eq hm hm' h

end Sys2Proof.Machine
end

section
/-! The block memory under commands (20_memory.md): the views of a block (R44 to R46), what one step does to the responses
(R47), and what QUERY and a second INSERT leave (R48). -/

namespace Sys2Proof.Machine

/-! ### The views of a block (R44, R45, R46) -/

/-- R46: bit `b` of dump byte `m`. -/
theorem dumpByte_getLsbD (w : Block) (m : Fin 32) (b : Nat) :
    (dumpByte w m).getLsbD b = (decide (b < 8) && w.getLsbD (8 * m.val + b)) := by
  rw [dumpByte, BitVec.getLsbD_extractLsb']

/-- R45: a 64-bit word is the 64 bits from its lower lane on. -/
theorem quadOf_eq_append_laneOf (w : Block) (k : Fin 4) {lo hi : Fin 8} (hlo : lo.val = 2 * k.val)
    (hhi : hi.val = 2 * k.val + 1) : quadOf w k = laneOf w hi ++ laneOf w lo := by
  have adjacent : 32 * hi.val = 32 * lo.val + 32 := by omega
  have start : 64 * k.val = 32 * lo.val := by omega
  rw [quadOf, laneOf, laneOf, start, BitVec.extractLsb'_append_extractLsb'_eq_extractLsb' adjacent]

/-- Settles O24: each view is a slice of the block, and a 64-bit word is two adjacent lanes. -/
theorem blockViewsAgree : Obligations.BlockViewsAgree := by
  intro w
  refine ⟨fun j b hb => ?_, fun k lo hi hlo hhi => quadOf_eq_append_laneOf w k hlo hhi, fun m b hb => ?_⟩
  · rw [laneOf_getLsbD, decide_eq_true hb, Bool.true_and]
  · rw [dumpByte_getLsbD, decide_eq_true hb, Bool.true_and]

/-! ### One response per accepted command (R47, R64) -/

/-- R61: `OP` on integers. -/
theorem opField_toNat (w : CmdWord) : (opField w).toNat = w.toNat / 2 ^ 64 := by
  have := w.isLt
  simp only [opField, BitVec.extractLsb'_toNat, Nat.shiftRight_eq_div_pow]
  omega

/-- R64: `ROP` on integers, of the response word with that `ROP`. -/
theorem responseWord_toNat_div_eight (op : OpField) (st : Status) (hit : Bool) :
    (responseWord op st hit).toNat / 8 = op.toNat := by
  revert op
  cases st <;> cases hit <;> decide

/-- R100, R105, R120: a command touches neither the acceptance index nor the host. -/
theorem exec_command_ports {w : CmdWord} {s t : State} (h : exec (decode (.command w)) s = .next t) :
    t.acceptIndex = s.acceptIndex ∧ t.host = s.host := by
  rcases exec_command_cases h with ⟨op, st, hit, rfl⟩ | ⟨hash, _, _, _, rfl⟩
  · exact ⟨rfl, rfl⟩
  · exact ⟨rfl, rfl⟩

/-- R64: a response that is taken goes from the head of RSPQ to the end of the host's list. -/
theorem taken_append_rspq_moveHead {s : State} (h : rspValid s = true) :
    (moveHead s).host.taken ++ (moveHead s).rspq = s.host.taken ++ s.rspq := by
  obtain ⟨r, rs, hq⟩ := List.exists_cons_of_ne_nil (rspValid_iff.mp h).2
  simp [rspWord, hq]

/-- Settles O10: an accepted command appends its one response, a take moves one, and no other step touches a response. -/
theorem oneResponsePerCommandInAcceptanceOrder : Obligations.OneResponsePerCommandInAcceptanceOrder := by
  intro s t hf h
  rcases step_cases h with ⟨_, rfl⟩ | ⟨ts, ht, ⟨_, rfl⟩ | ⟨w, _, hw, he⟩⟩ | ⟨_, _, ⟨_, rfl⟩ | ⟨hv, _, rfl⟩⟩ |
    ⟨a, _, _, rfl⟩ | ⟨_, _, rfl⟩ | ⟨cfg, ts, ht, _⟩
  · exact .inl ⟨rfl, rfl, rfl⟩
  · exact .inl ⟨rfl, rfl, rfl⟩
  · obtain ⟨st, hit, hq, _⟩ := exec_command_answersLegally he
    obtain ⟨hindex, hhost⟩ := exec_command_ports he
    obtain ⟨ws, hs⟩ := List.head?_eq_some_iff.mp hw
    refine .inr ⟨w, ts, _, ht, ?_, ?_, hq, ?_, hindex⟩
    · simp [hhost, hs]
    · simp [hhost]
    · rw [responseWord_toNat_div_eight, opField_toNat]
  · exact .inl ⟨rfl, rfl, rfl⟩
  · exact .inl ⟨taken_append_rspq_moveHead (s := popTurn s) hv, rfl, rfl⟩
  · rw [readPort_eq]
    exact .inl ⟨rfl, rfl, rfl⟩
  · exact .inl ⟨rfl, rfl, rfl⟩
  · simp [nextResetFree_of_reset ht] at hf

/-! ### What a QUERY answers and leaves (R48, R105) -/

/-- Everything QUERY can do when it answers a next state. -/
theorem execQuery_next {hash : Hash} {s t : State} (h : execQuery hash s = .next t) :
    (s.cfgErr = true ∧ t = respond opQuery .cfgErr false s) ∨
    (s.cfgErr = false ∧ accessible s (selectedBlock s hash) = true ∧ t = respond opQuery .ok
      (matchFlag s.config (loOf hash) (Memory.read s.blk (selectedBlock s hash).toNat)) s) := by
  cases hc : s.cfgErr with
  | true => rw [execQuery_cfgErr hc] at h; cases h; exact .inl ⟨rfl, rfl⟩
  | false =>
    cases ha : accessible s (selectedBlock s hash) with
    | true => rw [execQuery_ok hc ha] at h; cases h; exact .inr ⟨rfl, rfl, rfl⟩
    | false => rw [execQuery_fault hc ha] at h; cases h

theorem execQuery_blk {hash : Hash} {s t : State} (h : execQuery hash s = .next t) : t.blk = s.blk := by
  rcases execQuery_next h with ⟨_, rfl⟩ | ⟨_, _, rfl⟩
  · rfl
  · rfl

theorem responseWord_ok_injective {op : OpField} {hit hit' : Bool}
    (h : responseWord op .ok hit = responseWord op .ok hit') : hit = hit' := by
  revert op hit hit'; decide

theorem responseWord_cfgErr_ne_ok (op : OpField) (hit hit' : Bool) :
    responseWord op .cfgErr hit ≠ responseWord op .ok hit' := by
  revert op hit hit'; decide

/-- R105: a QUERY of `hash` answers `OK` with this MATCH. -/
def AnswersOk (s : State) (hash : Hash) (hit : Bool) : Prop :=
  ∃ t, exec (.query hash) s = .next t ∧ t.rspq = s.rspq ++ [responseWord opQuery .ok hit]

theorem answersMatch_iff_answersOk {s : State} {hash : Hash} : AnswersMatch s hash ↔ AnswersOk s hash true := Iff.rfl

theorem answersNoMatch_iff_answersOk {s : State} {hash : Hash} : AnswersNoMatch s hash ↔ AnswersOk s hash false := Iff.rfl

/-- R105: when a QUERY answers `OK` with this MATCH. -/
theorem answersOk_iff {s : State} {hash : Hash} {hit : Bool} :
    AnswersOk s hash hit ↔ s.cfgErr = false ∧ accessible s (selectedBlock s hash) = true ∧
      matchFlag s.config (loOf hash) (Memory.read s.blk (selectedBlock s hash).toNat) = hit := by
  constructor
  · rintro ⟨t, h, hq⟩
    rcases execQuery_next h with ⟨_, rfl⟩ | ⟨hc, ha, rfl⟩
    · exact absurd (by simpa using hq) (responseWord_cfgErr_ne_ok opQuery false hit)
    · exact ⟨hc, ha, responseWord_ok_injective (op := opQuery) (by simpa using hq)⟩
  · rintro ⟨hc, ha, rfl⟩
    exact ⟨_, execQuery_ok hc ha, rfl⟩

/-- R48, R105: what a QUERY answers depends on the build, the block memory, NUM_BLOCKS and CFG_ERR alone. -/
theorem answersOk_congr {s t : State} (hconfig : t.config = s.config) (hblk : t.blk = s.blk)
    (hn : t.numBlocks = s.numBlocks) (hc : t.cfgErr = s.cfgErr) (hash : Hash) (hit : Bool) :
    AnswersOk t hash hit ↔ AnswersOk s hash hit := by
  simp only [answersOk_iff, accessible_iff, selectedBlock, hconfig, hblk, hn, hc]

/-- R48: between resets a step that performs no INSERT leaves the block memory. -/
theorem step_blk_of_performedInsert_none {s t : State} (hf : s.nextResetFree = true) (hi : performedInsert s = none)
    (h : step s = .next t) : t.blk = s.blk := by
  rcases step_blk_of_resetFree hf h with hb | ⟨hash, hp, _⟩
  · exact hb
  · simp [hi] at hp

/-! ### The block a hash selects (R80, R82) -/

/-- R80: the block index on integers. -/
theorem blockIndex_toNat (n hi : Word32) : (blockIndex n hi).toNat = hi.toNat * n.toNat / 2 ^ 32 := by
  have product : hi.toNat * n.toNat < 2 ^ 64 := by
    calc hi.toNat * n.toNat < 2 ^ 32 * 2 ^ 32 := Nat.mul_lt_mul'' hi.isLt n.isLt
      _ = 2 ^ 64 := by norm_num
  have hhi := hi.isLt
  have hn := n.isLt
  simp only [blockIndex, BitVec.toNat_setWidth, BitVec.toNat_ushiftRight, BitVec.toNat_mul, Nat.shiftRight_eq_div_pow]
  rw [Nat.mod_eq_of_lt (by omega : hi.toNat < 2 ^ 64), Nat.mod_eq_of_lt (by omega : n.toNat < 2 ^ 64),
    Nat.mod_eq_of_lt product, Nat.mod_eq_of_lt (by omega)]

/-- R82: the block index is below the block count. -/
theorem blockIndex_lt {n : Word32} (h : n ≠ 0#32) (hi : Word32) : (blockIndex n hi).toNat < n.toNat := by
  have positive : 0 < n.toNat := Nat.pos_of_ne_zero fun e => h (BitVec.eq_of_toNat_eq e)
  rw [blockIndex_toNat]
  exact Nat.div_lt_of_lt_mul (Nat.mul_lt_mul_of_pos_right hi.isLt positive)

/-- R82, R25: without a configuration error the block a hash selects is in the memory. -/
theorem State.Inv.selectedBlock_accessible {s : State} (h : s.Inv) (hc : s.cfgErr = false) (hash : Hash) :
    accessible s (selectedBlock s hash) = true := by
  have below : (selectedBlock s hash).toNat < s.numBlocks.toNat := blockIndex_lt h.numBlocks_ne_zero _
  have capacity : ¬ s.config.maxBlocks.toNat < s.numBlocks.toNat := by
    rw [← exceedsCapacity_iff, ← h.cfgErr_eq, hc]
    decide
  exact accessible_iff.mpr ⟨below, by omega⟩

/-! ### A second INSERT (R48, R100) -/

/-- Writing back the word that is there changes nothing. -/
theorem Memory.write_read_self {m : Memory} (hm : Memory.wf m = true) (i : Nat) :
    Memory.write m i (Memory.read m i) = m := by
  refine Memory.eq_of_read_eq (Memory.wf_write hm _ _) hm fun k => ?_
  rw [Memory.read_write hm]
  split
  · next hk => rw [hk]
  · rfl

/-- A mask ORed into a word a second time changes nothing. -/
theorem Memory.write_or_write_or {m : Memory} (hm : Memory.wf m = true) (i : Nat) (mask : Block) :
    Memory.write (Memory.write m i (Memory.read m i ||| mask)) i
      (Memory.read (Memory.write m i (Memory.read m i ||| mask)) i ||| mask) =
    Memory.write m i (Memory.read m i ||| mask) := by
  have absorbed : Memory.read (Memory.write m i (Memory.read m i ||| mask)) i ||| mask =
      Memory.read (Memory.write m i (Memory.read m i ||| mask)) i := by
    rw [Memory.read_write hm, if_pos rfl, BitVec.or_assoc, BitVec.or_self]
  rw [absorbed, Memory.write_read_self (Memory.wf_write hm _ _)]

/-- R48: INSERT performed twice completes twice, and the second time changes no block word. -/
theorem insert_twice_blk {s : State} (h : s.Inv) (hash : Hash) :
    ∃ t u, exec (.insert hash) s = .next t ∧ exec (.insert hash) t = .next u ∧ u.blk = t.blk := by
  cases hc : s.cfgErr with
  | true => exact ⟨_, _, execInsert_cfgErr hc hash, execInsert_cfgErr (s := respond opInsert .cfgErr false s) hc hash, rfl⟩
  | false =>
    have ha := h.selectedBlock_accessible hc hash
    exact ⟨_, _, execInsert_ok hc ha, execInsert_ok hc ha, Memory.write_or_write_or h.blk_wf _ _⟩

/-- Settles O33: without an INSERT a step leaves all that a QUERY reads, and a second INSERT writes back the word it reads. -/
theorem queryHasNoSideEffectAndInsertIsIdempotent : Obligations.QueryHasNoSideEffectAndInsertIsIdempotent := by
  refine ⟨fun s t hf hi h => ?_, fun s t hash h => execQuery_blk h, fun s hash hs => insert_twice_blk hs hash⟩
  have hblk := step_blk_of_performedInsert_none hf hi h
  obtain ⟨hn, hc⟩ := step_registers_of_resetFree hf h
  have same := answersOk_congr (noStepChangesTheBuild s t h) hblk hn hc
  exact ⟨hblk, fun hash => by simp [answersMatch_iff_answersOk, answersNoMatch_iff_answersOk, same]⟩

end Sys2Proof.Machine
end

section
/-! The encoding and the ports (30_encoding.md): decoder and encoder agree (R61, R63, R66, R67, R71), what the step of each port
does (R60, R64, R66), the words a response can be (R64, R65, R144), and the key pseudo-instructions (R72). -/

namespace Sys2Proof.Machine

/-! ### The command word and its two fields (R61, R63) -/

/-- R61: the HASH field of a word with fields `op`, `hash`. -/
theorem hashField_commandWord (op : OpField) (hash : Hash) : hashField (commandWord op hash) = hash :=
  BitVec.extractLsb'_append_eq_right

/-- R61: OP and HASH are all the bits of a word. -/
theorem commandWord_opField_hashField (w : CmdWord) : commandWord (opField w) (hashField w) = w := by
  rw [commandWord, opField, hashField, BitVec.extractLsb'_append_extractLsb'_eq_extractLsb' (by decide), BitVec.extractLsb'_eq_self]

/-- R61: `HASH` on integers. -/
theorem hashField_eq_ofNat (w : CmdWord) : hashField w = BitVec.ofNat 64 w.toNat := by
  apply BitVec.eq_of_toNat_eq
  simp [hashField]

/-- R67: no operand makes an instruction ill-formed. -/
theorem instr_wf (i : Instr) : i.wf = true := by
  cases i <;> rfl

/-- R63: a word put together from an OP and a HASH decodes by that OP, with that HASH as its operand. -/
theorem decode_commandWord (op : OpField) (hash : Hash) :
    decode (.command (commandWord op hash)) =
      if op = opQuery then .query hash else if op = opInsert then .insert hash
      else if op = opReserved00 then .reserved00 hash else .reserved11 hash := by
  simp only [decode, decodeCommand, Laws.TableRow.opField_commandWord, hashField_commandWord]

/-- R71: the decoder inverts the encoder. -/
theorem decode_encode (i : Instr) : decode (encode i) = i := by
  cases i with
  | query hash => exact decode_commandWord opQuery hash
  | insert hash => exact decode_commandWord opInsert hash
  | reserved00 hash => exact decode_commandWord opReserved00 hash
  | reserved11 hash => exact decode_commandWord opReserved11 hash
  | csrRead addr => rfl

/-- R67: the encoder inverts the decoder. -/
theorem encode_decode (r : Request) : encode (decode r) = r := by
  cases r with
  | statusRead a => rfl
  | command w =>
    rcases decode_command_cases w with ⟨ho, hd⟩ | ⟨ho, hd⟩ | ⟨ho, hd⟩ | ⟨ho, hd⟩ <;>
      rw [hd, encode, ← ho, commandWord_opField_hashField]

/-! ### A table row's bits as a transfer (log 14) -/

theorem transferOf_command (w : CmdWord) : transferOf 72 w.toNat = .ok (.command w) := by
  have := w.isLt
  simp [transferOf, this]

theorem transferOf_statusRead (a : CsrAddr) : transferOf 8 a.toNat = .ok (.statusRead a) := by
  have := a.isLt
  simp [transferOf, this]

/-- A table row's bits decode to what the transfer they stand for decodes to. -/
theorem decodeTableWord_eq_some {nbits w : Nat} {i : Instr} :
    decodeTableWord nbits w = some i ↔ ∃ r, transferOf nbits w = .ok r ∧ decode r = i := by
  unfold decodeTableWord
  cases transferOf nbits w <;> simp

/-- Settles O1: the decoder inverts the encoder, and a row's bits are the transfer. -/
theorem decodingTheEncodingGivesTheInstructionBack : Obligations.DecodingTheEncodingGivesTheInstructionBack := by
  intro i _
  refine ⟨decode_encode i, fun w hw => ?_, fun a ha => ?_⟩
  · exact decodeTableWord_eq_some.mpr ⟨.command w, transferOf_command w, hw ▸ decode_encode i⟩
  · exact decodeTableWord_eq_some.mpr ⟨.statusRead a, transferOf_statusRead a, ha ▸ decode_encode i⟩

/-- Settles O2: the two fields of a word are all its bits. -/
theorem encodingTheDecodingGivesTheTransferBack : Obligations.EncodingTheDecodingGivesTheTransferBack :=
  fun r => ⟨encode_decode r, instr_wf _⟩

/-- Settles O3: bits 65:64 are OP, and the decoder's four cases are its four values. -/
theorem everyCommandWordDecodesByItsOpField : Obligations.EveryCommandWordDecodesByItsOpField := by
  intro w
  have op := opField_toNat w
  rcases decode_command_cases w with ⟨ho, hd⟩ | ⟨ho, hd⟩ | ⟨ho, hd⟩ | ⟨ho, hd⟩
  all_goals
    rw [ho] at op
    rw [hd, hashField_eq_ofNat, ← op]
    simp [opQuery, opInsert, opReserved00, opReserved11]

/-- opcode_table.json: an encoded instruction lies in its own row. -/
theorem tableRow_statement (i : Instr) : Laws.TableRow.Statement i := by
  cases i with
  | query hash => exact Laws.TableRow.query hash
  | insert hash => exact Laws.TableRow.insert hash
  | reserved00 hash => exact Laws.TableRow.reserved00 hash
  | reserved11 hash => exact Laws.TableRow.reserved11 hash
  | csrRead addr => exact Laws.TableRow.csrRead addr

/-- opcode_table.json: a command row covers exactly the words that decode to its mnemonic. -/
theorem covers_eq_decide_mnemonic (w : CmdWord) {r : CommandRow} (hr : r ∈ commandTable) :
    r.covers w = decide (r.mnemonic = (decode (.command w)).mnemonic) := by
  have h := tableRow_statement (decode (.command w))
  rw [Laws.TableRow.Statement, encode_decode] at h
  exact h r hr

theorem commandTable_mnemonic_injective :
    ∀ r ∈ commandTable, ∀ r' ∈ commandTable, r'.mnemonic = r.mnemonic → r' = r := by decide

/-- R67: what a command word decodes to has a command row. -/
theorem exists_commandTable_mnemonic (w : CmdWord) : ∃ r ∈ commandTable, r.mnemonic = (decode (.command w)).mnemonic := by
  rcases decode_command_cases w with ⟨_, hd⟩ | ⟨_, hd⟩ | ⟨_, hd⟩ | ⟨_, hd⟩ <;>
    simp [hd, commandTable, Instr.mnemonic]

/-- Settles O4: a row covers the words of its mnemonic, and no two rows have one mnemonic. -/
theorem everyCommandWordLiesInExactlyOneTableRow : Obligations.EveryCommandWordLiesInExactlyOneTableRow := by
  intro w
  obtain ⟨r, hr, hm⟩ := exists_commandTable_mnemonic w
  refine ⟨r, hr, by rw [covers_eq_decide_mnemonic w hr, decide_eq_true hm], hm, fun r' hr' hc => ?_⟩
  rw [covers_eq_decide_mnemonic w hr', decide_eq_true_eq] at hc
  exact commandTable_mnemonic_injective r hr r' hr' (hc.trans hm.symm)

/-- Settles O5: each word evaluated by the decoder. -/
theorem writtenOutWordsDecode : Obligations.WrittenOutWordsDecode := by
  refine ⟨?_, ?_, ?_, ?_, ?_, rfl⟩ <;> decide

/-! ### The step of each port (R60, R64, R66) -/

theorem popTurn_eq {s : State} {t : Turn} {ts : List Turn} (h : s.host.turns = t :: ts) :
    popTurn s = { s with host := { s.host with turns := ts } } := by
  rw [popTurn, h, List.tail_cons]

/-- R60: the accept step with a command offered and room in RSPQ. -/
theorem step_accept {s : State} {w : CmdWord} {ws : List CmdWord} {ts : List Turn}
    (ht : s.host.turns = .accept :: ts) (hs : s.host.stream = w :: ws) (ready : cmdReady s = true) :
    step s = exec (decode (.command w)) (consumeCommand (popTurn s)) := by
  have taken : acceptCommand (popTurn s) = some (w, consumeCommand (popTurn s)) :=
    acceptCommand_eq_some.mpr ⟨ready, by simp [hs], rfl⟩
  simp [step, ht, taken]

/-- R60: the accept step that is not enabled. -/
theorem step_accept_of_not_enabled {s : State} {ts : List Turn} (ht : s.host.turns = .accept :: ts)
    (h : acceptEnabled s = false) : step s = .next (popTurn s) := by
  have notTaken : acceptCommand (popTurn s) = none := by
    rw [← Option.not_isSome_iff_eq_none, acceptCommand_isSome, acceptEnabled_popTurn, h]
    decide
  simp [step, ht, notTaken]

/-- R66: the status-read step, in reset and out of it. -/
theorem step_readStatus {s : State} {a : CsrAddr} {ts : List Turn} (ht : s.host.turns = .readStatus a :: ts) :
    step s = exec (decode (.statusRead a)) (popTurn s) := by
  simp [step, ht]

/-- R64: the take step. -/
theorem step_take {s : State} {ts : List Turn} (ht : s.host.turns = .take :: ts) :
    step s = takeResponse (popTurn s) := by
  simp [step, ht]

/-- R154: with no turn left the machine is idle. -/
theorem step_of_no_turns {s : State} (ht : s.host.turns = []) : step s = .next s := by
  simp [step, ht]

/-- Settles O6: the step of each port, with the state in which it performs the instruction written out. -/
theorem stepRunsTheDecodedInstruction : Obligations.StepRunsTheDecodedInstruction := by
  refine ⟨fun s w ws ts ht hs hrst room => ?_, fun s a ts ht => ?_⟩
  · rw [step_accept ht hs (cmdReady_iff.mpr ⟨hrst, room⟩), consumeCommand, popTurn_eq ht]
    simp only [hs, List.tail_cons]
  · rw [step_readStatus ht, popTurn_eq ht]

/-- R60: why the accept step is not enabled. -/
theorem acceptEnabled_eq_false {s : State}
    (h : s.host.stream = [] ∨ s.rstN = false ∨ s.config.rspDepth ≤ s.rspq.length) : acceptEnabled s = false := by
  rw [← Bool.not_eq_true, acceptEnabled_iff, cmdReady_iff]
  rintro ⟨⟨hrst, room⟩, offered⟩
  rcases h with hs | hr | full
  · exact offered hs
  · simp [hr] at hrst
  · omega

/-- Settles O8: each of the three reasons disables the accept step, and an accept turn then only passes. -/
theorem nothingIsAcceptedUnlessOfferedAndReady : Obligations.NothingIsAcceptedUnlessOfferedAndReady := by
  refine ⟨fun s ts ht h => ?_, fun s ht => step_of_no_turns ht⟩
  rw [step_accept_of_not_enabled ht (acceptEnabled_eq_false h), popTurn_eq ht]

/-! ### A transfer placed for the next step (log 13) -/

/-- A placed status-port read is run in the state itself. -/
theorem step_placeTransfer_statusRead (s : State) (a : CsrAddr) :
    step (placeTransfer s (.statusRead a)) = exec (decode (.statusRead a)) s :=
  step_readStatus rfl

/-- A placed command is run in the state itself, but for the acceptance index. -/
theorem step_placeTransfer_command {s : State} (ready : cmdReady s = true) (w : CmdWord) :
    step (placeTransfer s (.command w)) = exec (decode (.command w)) { s with acceptIndex := s.acceptIndex + 1 } :=
  step_accept (ws := s.host.stream) (ts := s.host.turns) rfl rfl ready

/-- Log 14: the port of a table row's bits. -/
theorem transferOf_ok {nbits w : Nat} {r : Request} (h : transferOf nbits w = .ok r) :
    (nbits ≤ 8 ∧ ∃ a, r = .statusRead a) ∨ (¬ nbits ≤ 8 ∧ ∃ c, r = .command c) := by
  unfold transferOf at h
  split at h
  · next short =>
    split at h
    · cases h; exact .inl ⟨short, _, rfl⟩
    · cases h
  · next long =>
    split at h
    · cases h; exact .inr ⟨long, _, rfl⟩
    · cases h

theorem withFetchWord_eq_placeTransfer {nbits w : Nat} {r : Request} (h : transferOf nbits w = .ok r) (s : State) :
    s.withFetchWord nbits w = placeTransfer s r := by
  simp [State.withFetchWord, placeTableWord, h]

/-- Settles O7: the bits are placed as a transfer of one of the two ports, whose step comes next. -/
theorem placedTableWordIsRunByTheNextStep : Obligations.PlacedTableWordIsRunByTheNextStep := by
  intro s nbits w i hd ready
  obtain ⟨r, hr, rfl⟩ := decodeTableWord_eq_some.mp hd
  rw [withFetchWord_eq_placeTransfer hr]
  rcases transferOf_ok hr with ⟨short, a, rfl⟩ | ⟨long, c, rfl⟩
  · rw [if_pos short, step_placeTransfer_statusRead]
  · rw [if_neg long, step_placeTransfer_command ready]

/-! ### The response port (R64, R65, R144) -/

/-- Settles O39: the fields are slices of the word, and the nine words are picked out of the 32. -/
theorem producedResponsesAreTheCauseTable : Obligations.ProducedResponsesAreTheCauseTable := by
  refine ⟨fun rop st hit => ?_, by decide⟩
  revert rop
  cases st <;> cases hit <;> decide

/-- R64: STATUS on integers. -/
theorem statusOf_toNat (r : RspWord) : (statusOf r).toNat = r.toNat / 2 % 4 := by
  simp [statusOf, Nat.shiftRight_eq_div_pow]

/-- R65: the reserved STATUS on integers. -/
theorem statusOf_eq_reserved_iff (r : RspWord) : statusOf r = 0b11#2 ↔ r.toNat / 2 % 4 = 3 := by
  rw [← statusOf_toNat, ← BitVec.toNat_inj]
  rfl

/-- R65: the engine never produces STATUS `0b11`. -/
theorem statusOf_ne_reserved_of_legalResponse : ∀ r : RspWord, legalResponse r = true → statusOf r ≠ 0b11#2 := by
  decide

/-- R64: `rsp_word` with a response queued. -/
theorem rspWord_of_cons {s : State} {r : RspWord} {rs : List RspWord} (h : s.rspq = r :: rs) : rspWord s = r := by
  rw [rspWord, h, List.headD_cons]

/-- R64: a take with no response queued. -/
theorem takeResponse_of_nil {s : State} (h : s.rspq = []) : takeResponse s = .next s := by
  simp [takeResponse, rspValid, h]

/-- R64, P8: a take with a response queued. -/
theorem takeResponse_of_cons {s : State} {r : RspWord} {rs : List RspWord} (hrst : s.rstN = true) (h : s.rspq = r :: rs) :
    takeResponse s = if statusOf r = 0b11#2 then .fault .reservedStatus else .next (moveHead s) := by
  have valid : rspValid s = true := rspValid_iff.mpr ⟨hrst, by simp [h]⟩
  simp [takeResponse, valid, rspWord_of_cons h]

/-- R64: the head response goes to the host. -/
theorem moveHead_of_cons {s : State} {r : RspWord} {rs : List RspWord} (h : s.rspq = r :: rs) :
    moveHead s = { s with rspq := rs, host := { s.host with taken := s.host.taken ++ [r] } } := by
  rw [moveHead, rspWord_of_cons h, h, List.tail_cons]

/-- Settles O9: the take step by the head of RSPQ and its STATUS, which in a state of the invariant is never `0b11`. -/
theorem takeStepDeliversTheHeadResponse : Obligations.TakeStepDeliversTheHeadResponse := by
  refine ⟨fun s hrst => by simp [rspValid_iff, hrst], fun s => ⟨fun h => by simp [rspWord, h], fun r rs => rspWord_of_cons⟩,
    fun s ts hrst ht => ⟨fun r rs hq good => ?_, fun r rs hq reserved => ?_, fun hq => ?_⟩, fun s hs r hr => ?_⟩
  · rw [step_take ht, takeResponse_of_cons (s := popTurn s) hrst hq, if_neg (mt (statusOf_eq_reserved_iff r).mp good),
      moveHead_of_cons (s := popTurn s) hq, popTurn_eq ht]
  · rw [step_take ht, takeResponse_of_cons (s := popTurn s) hrst hq, if_pos ((statusOf_eq_reserved_iff r).mpr reserved)]
  · rw [step_take ht, takeResponse_of_nil (s := popTurn s) hq, popTurn_eq ht]
  · exact mt (statusOf_eq_reserved_iff r).mpr (statusOf_ne_reserved_of_legalResponse r (hs.rspq_legal r hr))

/-- Settles O41: in reset the datum is the next free value. -/
theorem statusReadDuringResetDeliversSomeValue : Obligations.StatusReadDuringResetDeliversSomeValue := by
  intro s a hrst
  refine ⟨csrRdata s a, ?_⟩
  simp only [exec, execCsrRead, readPort_eq, hrst, Bool.false_eq_true, if_false]

/-! ### A key inserted and then queried (R72, R86, R105) -/

theorem derivedPosition_lt (c : Config) (lo : Word32) (j : Fin 8) : derivedPosition c lo j < 256 := by
  have lane := j.isLt
  have bit := (bitIndex (c.salt j) lo).isLt
  simp only [derivedPosition, lanePosition]
  omega

/-- A bit of an OR over a list of words. -/
theorem getLsbD_foldr_or {α : Type} (f : α → Block) (l : List α) (k : Nat) :
    (l.foldr (fun a m => f a ||| m) 0#256).getLsbD k = l.any fun a => (f a).getLsbD k := by
  induction l with
  | nil => simp
  | cons a l ih => simp [ih]

/-- R86: the mask has the bit that each lane derives. -/
theorem laneMask_getLsbD_derivedPosition (c : Config) (lo : Word32) (j : Fin 8) :
    (laneMask c lo).getLsbD (derivedPosition c lo j) = true := by
  rw [laneMask, getLsbD_foldr_or, List.any_eq_true]
  exact ⟨j, List.mem_finRange j, by simp [derivedPosition_lt]⟩

/-- R105: MATCH is 1 exactly when the bit of every lane is set. -/
theorem matchFlag_iff {c : Config} {lo : Word32} {b : Block} :
    matchFlag c lo b = true ↔ ∀ j, b.getLsbD (derivedPosition c lo j) = true := by
  simp [matchFlag, misses]

/-- R110: a block into which the mask was ORed matches. -/
theorem matchFlag_or_laneMask (c : Config) (lo : Word32) (b : Block) : matchFlag c lo (b ||| laneMask c lo) = true := by
  rw [matchFlag_iff]
  intro j
  rw [BitVec.getLsbD_or, laneMask_getLsbD_derivedPosition, Bool.or_true]

/-- R110: an INSERT completes, and right after it the same hash is found. -/
theorem insert_then_answersMatch {s : State} (hs : s.Inv) (hc : s.cfgErr = false) (hash : Hash) :
    ∃ t, exec (.insert hash) s = .next t ∧ AnswersMatch t hash := by
  have ha := hs.selectedBlock_accessible hc hash
  refine ⟨_, execInsert_ok hc ha, answersMatch_iff_answersOk.mpr (answersOk_iff.mpr ⟨hc, ha, ?_⟩)⟩
  simp only [selectedBlock, respond_config, respond_blk, respond_numBlocks, storeBlock_config, storeBlock_blk,
    storeBlock_numBlocks, Memory.read_write hs.blk_wf, if_true, matchFlag_or_laneMask]

/-- Settles O35: both pseudo-instructions carry the same hash, whatever it is. -/
theorem insertedKeyIsFound : Obligations.InsertedKeyIsFound := by
  intro s seed key hs hc
  obtain ⟨t, ht, u, hu, hq⟩ := insert_then_answersMatch hs hc (Config.keyHash seed key)
  exact ⟨t, u, ht, hu, hq⟩

end Sys2Proof.Machine
end

section
/-! The block-address unit (40_datapath.md R80 to R82, R88): the index on integers, its range, its corner values, and how many
values of HI select each block. -/

namespace Sys2Proof.Machine

/-! ### The index on integers (R80) -/

/-- R80: the index a hash selects, on integers. -/
theorem blockIndex_hiOf_toNat (n : Word32) (hash : Hash) : (blockIndex n (hiOf hash)).toNat = specIndex n hash := by
  rw [blockIndex_toNat, hiOf_toNat, specIndex]

/-- R62: hashes with the same high half have the same HI. -/
theorem hiOf_congr {g h : Hash} (e : g.toNat / 2 ^ 32 = h.toNat / 2 ^ 32) : hiOf g = hiOf h :=
  BitVec.eq_of_toNat_eq (by rw [hiOf_toNat, hiOf_toNat, e])

/-- Settles O16: the unit computes the floor, and reads of the hash its high half only. -/
theorem blockIndexIsTheMultiplyHigh : Obligations.BlockIndexIsTheMultiplyHigh :=
  fun n hash => ⟨blockIndex_hiOf_toNat n hash, fun _ e => congrArg (blockIndex n) (hiOf_congr e)⟩

/-! ### Range and corner values (R81, R82) -/

/-- R24: a block count that is not 0 is positive. -/
theorem word32_toNat_pos {n : Word32} (h : n ≠ 0#32) : 0 < n.toNat :=
  Nat.pos_of_ne_zero fun e => h (BitVec.eq_of_toNat_eq e)

/-- A count below 2^32 as a word. -/
theorem word32_toNat_ofNat {k : ℕ} (h : k < 2 ^ 32) : (BitVec.ofNat 32 k).toNat = k := by
  rw [BitVec.toNat_ofNat, Nat.mod_eq_of_lt h]

/-- R82: one block takes every hash. -/
theorem blockIndex_one (hi : Word32) : blockIndex 1#32 hi = 0#32 := by
  have below := blockIndex_lt (n := 1#32) (by decide) hi
  exact BitVec.eq_of_toNat_eq (Nat.lt_one_iff.mp below)

/-- R82: `HI = 0` selects block 0. -/
theorem blockIndex_hi_zero (n : Word32) : blockIndex n 0#32 = 0#32 :=
  BitVec.eq_of_toNat_eq (by simp [blockIndex_toNat])

/-- R82: the largest HI selects the last block. -/
theorem blockIndex_hi_allOnes {n : Word32} (h : n ≠ 0#32) : blockIndex n 0xFFFFFFFF#32 = n - 1#32 := by
  have positive := word32_toNat_pos h
  have bound := n.isLt
  have floor : 4294967295 * n.toNat / 2 ^ 32 = n.toNat - 1 := Nat.div_eq_of_lt_le (by omega) (by omega)
  apply BitVec.eq_of_toNat_eq
  simp only [blockIndex_toNat, BitVec.toNat_sub, BitVec.reduceToNat, floor]
  omega

/-- R82: the index does not decrease with HI. -/
theorem blockIndex_mono (n : Word32) {hi hi' : Word32} (h : hi.toNat ≤ hi'.toNat) :
    (blockIndex n hi).toNat ≤ (blockIndex n hi').toNat := by
  rw [blockIndex_toNat, blockIndex_toNat]
  exact Nat.div_le_div_right (Nat.mul_le_mul_right _ h)

/-- Settles O17: the range is R80's floor below NUM_BLOCKS, and the corner values are that floor evaluated. -/
theorem blockIndexIsAlwaysInRange : Obligations.BlockIndexIsAlwaysInRange :=
  fun n hi h => ⟨Nat.le_sub_one_of_lt (blockIndex_lt h hi), fun e => e ▸ blockIndex_one hi, blockIndex_hi_zero n,
    blockIndex_hi_allOnes h, fun _ => blockIndex_mono n, BitVec.toNat_mul_toNat_lt⟩

/-! ### How many values of HI select a block (R88) -/

/-- The ceiling of a sum lies above the ceiling of its first term by the floor or the ceiling of its second. -/
theorem add_ceilDiv_sub_ceilDiv (x m : ℕ) {n : ℕ} (hn : 0 < n) :
    (x + m) ⌈/⌉ n - x ⌈/⌉ n = m / n ∨ (x + m) ⌈/⌉ n - x ⌈/⌉ n = m ⌈/⌉ n := by
  have upper : (x + m) ⌈/⌉ n ≤ x ⌈/⌉ n + m ⌈/⌉ n := by
    rw [ceilDiv_le_iff_le_mul hn, mul_add]
    exact Nat.add_le_add (le_smul_ceilDiv hn) (le_smul_ceilDiv hn)
  have lower : x ⌈/⌉ n ≤ (x + m) ⌈/⌉ n - m / n := by
    have whole : x + m ≤ n * ((x + m) ⌈/⌉ n) := le_smul_ceilDiv hn
    have part : n * (m / n) ≤ m := Nat.mul_div_le m n
    rw [ceilDiv_le_iff_le_mul hn, Nat.mul_sub]
    omega
  have floor_le : m / n ≤ (x + m) ⌈/⌉ n :=
    (Nat.div_le_div_right (by omega)).trans (floorDiv_le_ceilDiv (a := n) (b := x + m))
  have ceil_le : m ⌈/⌉ n ≤ m / n + 1 := (ceilDiv_le_iff_le_mul hn).mpr (Nat.lt_mul_div_succ m hn).le
  omega

/-- R88: block `i` is selected from `ceil(i * 2^32 / N)` on, up to the first HI of the next block. -/
theorem blockIndex_eq_iff {n hi : Word32} (hn : 0 < n.toNat) (i : ℕ) :
    (blockIndex n hi).toNat = i ↔
      (i * 2 ^ 32) ⌈/⌉ n.toNat ≤ hi.toNat ∧ hi.toNat < ((i + 1) * 2 ^ 32) ⌈/⌉ n.toNat := by
  rw [← not_le, ceilDiv_le_iff_le_mul hn, ceilDiv_le_iff_le_mul hn, not_le, mul_comm n.toNat, blockIndex_toNat]
  omega

/-- R88: the values of HI that select a block are an interval. -/
theorem filter_blockIndex_eq_Ico {n : Word32} {i : ℕ} (hi : i < n.toNat) :
    (Finset.range (2 ^ 32)).filter (fun h => (blockIndex n (BitVec.ofNat 32 h)).toNat = i) =
      Finset.Ico ((i * 2 ^ 32) ⌈/⌉ n.toNat) (((i + 1) * 2 ^ 32) ⌈/⌉ n.toNat) := by
  have hn : 0 < n.toNat := by omega
  have last : ((i + 1) * 2 ^ 32) ⌈/⌉ n.toNat ≤ 2 ^ 32 :=
    (ceilDiv_le_iff_le_mul hn).mpr (Nat.mul_le_mul_right _ hi)
  ext h
  rw [Finset.mem_filter, Finset.mem_range, Finset.mem_Ico, blockIndex_eq_iff hn]
  constructor
  · rintro ⟨small, selected⟩
    rw [word32_toNat_ofNat small] at selected
    exact selected
  · intro selected
    have small : h < 2 ^ 32 := by omega
    rw [word32_toNat_ofNat small]
    exact ⟨small, selected⟩

/-- Settles O18: the count is the length of the block's interval, a difference of two ceilings. -/
theorem blockIndexIsUniform : Obligations.BlockIndexIsUniform := by
  intro n i hi
  have split := add_ceilDiv_sub_ceilDiv (i * 2 ^ 32) (2 ^ 32) (by omega : 0 < n.toNat)
  rw [← Nat.succ_mul] at split
  rw [filter_blockIndex_eq_Ico hi, Nat.card_Ico]
  exact ⟨rfl, split⟩

end Sys2Proof.Machine
end

section
/-! The bit-derivers and the lane mask (40_datapath.md R83 to R87, R89): a bit index on integers, its uniformity, its values at
special inputs, and the mask lane by lane. -/

namespace Sys2Proof.Machine

/-! ### A bit index on integers (R83) -/

/-- R83: the top five bits of a 32-bit word, on integers. -/
theorem bitIndex_toNat (salt lo : Word32) : (bitIndex salt lo).toNat = lo.toNat * salt.toNat % 2 ^ 32 / 2 ^ 27 := by
  simp only [bitIndex, deriverShift, BitVec.toNat_setWidth, BitVec.toNat_ushiftRight, BitVec.toNat_mul,
    Nat.shiftRight_eq_div_pow]
  omega

/-- R83: the bit index a hash derives, on integers. -/
theorem bitIndex_loOf_toNat (c : Config) (hash : Hash) (j : Fin 8) :
    (bitIndex (c.salt j) (loOf hash)).toNat = specBit c hash j := by
  rw [bitIndex_toNat, loOf_toNat, specBit]

/-- R83: a bit index is 0..31. -/
theorem specBit_lt (c : Config) (hash : Hash) (j : Fin 8) : specBit c hash j < 32 := by
  rw [← bitIndex_loOf_toNat]
  exact BitVec.isLt _

/-- R89 (3): an odd salt keeps the top bit of `LO = 0x80000000`. -/
theorem bitIndex_half {salt : Word32} (odd : salt.toNat % 2 = 1) : bitIndex salt 0x80000000#32 = 16#5 := by
  apply BitVec.eq_of_toNat_eq
  rw [bitIndex_toNat, BitVec.toNat_ofNat, BitVec.toNat_ofNat]
  omega

/-- Settles O19: the deriver is R83's floor, and `LO = 0x80000000` gives 16 because the salt is odd. -/
theorem bitIndexIsTheTopFiveBitsOfTheProduct : Obligations.BitIndexIsTheTopFiveBitsOfTheProduct := by
  intro c hash j
  refine ⟨bitIndex_loOf_toNat c hash j, specBit_lt c hash j, fun h => ?_⟩
  have lo : loOf hash = 0x80000000#32 := BitVec.eq_of_toNat_eq ((loOf_toNat hash).trans h)
  rw [← bitIndex_loOf_toNat, lo, bitIndex_half (Config.salt_odd c j)]
  rfl

/-! ### Values at special inputs (R89) -/

/-- R89 (2): `LO = 0` gives bit 0. -/
theorem bitIndex_lo_zero (salt : Word32) : bitIndex salt 0#32 = 0#5 :=
  BitVec.eq_of_toNat_eq (by simp [bitIndex_toNat])

/-- R89 (4): `LO = 0x40000000` keeps the two lowest bits of the salt as the top two of the product. -/
theorem bitIndex_quarter (salt : Word32) : (bitIndex salt 0x40000000#32).toNat = 8 * (salt.toNat % 4) := by
  rw [bitIndex_toNat, BitVec.toNat_ofNat]
  omega

/-- R89 (5): `LO = 1` gives the salt's own top five bits. -/
theorem bitIndex_lo_one (salt : Word32) : (bitIndex salt 1#32).toNat = salt.toNat / 2 ^ 27 := by
  have bound := salt.isLt
  rw [bitIndex_toNat, BitVec.toNat_ofNat]
  omega

/-- Settles O21: each value is R83's floor at that input; an odd salt is 1 or 3 modulo 4. -/
theorem deriverValuesAtSpecialInputs : Obligations.DeriverValuesAtSpecialInputs := by
  intro c j
  have odd := Config.salt_odd c j
  refine ⟨bitIndex_lo_zero _, bitIndex_half odd, fun h => ?_, fun h => ?_, by omega, bitIndex_lo_one _⟩ <;>
    exact BitVec.eq_of_toNat_eq (by rw [bitIndex_quarter, h]; rfl)

/-! ### Multiplying by a salt (R89 (1)) -/

/-- An odd word has an inverse modulo 2^32. -/
theorem isUnit_of_odd {salt : Word32} (odd : salt.toNat % 2 = 1) : IsUnit salt := by
  have coprime : Nat.Coprime salt.toNat (2 ^ 32) := (Nat.coprime_two_right.mpr (Nat.odd_iff.mpr odd)).pow_right 32
  obtain ⟨m, -, hm⟩ := Nat.exists_mul_mod_eq_one_of_coprime coprime (by norm_num)
  refine IsUnit.of_mul_eq_one (BitVec.ofNat 32 m) (BitVec.eq_of_toNat_eq ?_)
  simpa [BitVec.toNat_mul] using hm

/-- The 32-bit words with top five bits `b`, as integers: a run of 2^27. -/
def topFiveRun (b : BitVec 5) : Finset ℕ := Finset.Ico (b.toNat * 2 ^ 27) (b.toNat * 2 ^ 27 + 2 ^ 27)

/-- Each value of the top five bits has 2^27 words. -/
theorem card_topFiveRun (b : BitVec 5) : (topFiveRun b).card = 2 ^ 27 := by
  simp [topFiveRun]

/-- The words of a run are 32-bit words. -/
theorem lt_of_mem_topFiveRun {b : BitVec 5} {p : ℕ} (h : p ∈ topFiveRun b) : p < 2 ^ 32 := by
  have bound := b.isLt
  have last := (Finset.mem_Ico.mp h).2
  omega

/-- R83: a bit index is `b` where the product has the top five bits `b`. -/
theorem bitIndex_eq_iff {salt lo : Word32} {b : BitVec 5} : bitIndex salt lo = b ↔ (lo * salt).toNat ∈ topFiveRun b := by
  rw [← BitVec.toNat_inj, bitIndex_toNat, BitVec.toNat_mul, topFiveRun, Finset.mem_Ico]
  omega

/-- The 32-bit product with a word, on integers. -/
def wordProduct (factor : Word32) (k : ℕ) : ℕ := (BitVec.ofNat 32 k * factor).toNat

/-- R83: a product is kept modulo 2^32. -/
theorem wordProduct_lt (factor : Word32) (k : ℕ) : wordProduct factor k < 2 ^ 32 := BitVec.isLt _

/-- Multiplying by a word and then by its inverse gives a 32-bit word back. -/
theorem wordProduct_cancel {a a' : Word32} (h : a * a' = 1) {k : ℕ} (hk : k < 2 ^ 32) :
    wordProduct a' (wordProduct a k) = k := by
  rw [wordProduct, wordProduct, BitVec.ofNat_toNat, BitVec.setWidth_eq, mul_assoc, h, mul_one, word32_toNat_ofNat hk]

/-- R83: the words that derive the bit index `b` are those whose product has the top five bits `b`. -/
theorem mem_filter_bitIndex {salt : Word32} {b : BitVec 5} {lo : ℕ} :
    (lo ∈ (Finset.range (2 ^ 32)).filter fun lo => bitIndex salt (BitVec.ofNat 32 lo) = b) ↔
      lo < 2 ^ 32 ∧ wordProduct salt lo ∈ topFiveRun b := by
  rw [Finset.mem_filter, Finset.mem_range, bitIndex_eq_iff, wordProduct]

/-- R89 (1): multiplication by the salt carries the words of bit index `b` onto a run of 2^27 words, and its inverse carries
them back. -/
theorem card_filter_bitIndex (u : Word32ˣ) (b : BitVec 5) :
    ((Finset.range (2 ^ 32)).filter fun lo => bitIndex ↑u (BitVec.ofNat 32 lo) = b).card = 2 ^ 27 := by
  rw [← card_topFiveRun b]
  refine Finset.card_nbij' (wordProduct u) (wordProduct ↑u⁻¹) ?_ ?_ ?_ ?_
  · exact fun lo hlo => (mem_filter_bitIndex.mp hlo).2
  · intro p hp
    have back := wordProduct_cancel u.inv_mul (lt_of_mem_topFiveRun hp)
    exact mem_filter_bitIndex.mpr ⟨wordProduct_lt _ _, back.symm ▸ hp⟩
  · exact fun lo hlo => wordProduct_cancel u.mul_inv (mem_filter_bitIndex.mp hlo).1
  · exact fun p hp => wordProduct_cancel u.inv_mul (lt_of_mem_topFiveRun hp)

/-- Settles O20: an odd salt is a unit of the 32-bit words. -/
theorem eachDeriverIsUniform : Obligations.EachDeriverIsUniform := by
  intro c j
  obtain ⟨u, hu⟩ := isUnit_of_odd (Config.salt_odd c j)
  rw [← hu]
  exact ⟨u.mulRight_bijective, card_filter_bitIndex u⟩

/-! ### The lane mask (R86) -/

/-- R86: the set bits of the mask are the eight derived positions. -/
theorem laneMask_getLsbD (c : Config) (lo : Word32) (k : ℕ) :
    (laneMask c lo).getLsbD k = decide (∃ j, derivedPosition c lo j = k) := by
  rw [laneMask, getLsbD_foldr_or, Bool.eq_iff_iff, List.any_eq_true, decide_eq_true_iff]
  simp only [← BitVec.twoPow_eq, BitVec.getLsbD_twoPow, derivedPosition_lt, List.mem_finRange, true_and, decide_true,
    Bool.true_and, decide_eq_true_iff]

/-- R84: the position a hash derives in lane `j`. -/
theorem derivedPosition_loOf (c : Config) (hash : Hash) (j : Fin 8) :
    derivedPosition c (loOf hash) j = 32 * j.val + specBit c hash j := by
  rw [derivedPosition, lanePosition, bitIndex_loOf_toNat]

/-- R84: a derived position names its lane and its bit in the lane. -/
theorem derivedPosition_eq_iff (c : Config) (hash : Hash) (i j : Fin 8) {b : ℕ} (hb : b < 32) :
    derivedPosition c (loOf hash) i = 32 * j.val + b ↔ i = j ∧ b = specBit c hash j := by
  have hi := specBit_lt c hash i
  rw [derivedPosition_loOf]
  constructor
  · intro h
    obtain rfl : i = j := by omega
    exact ⟨rfl, by omega⟩
  · rintro ⟨rfl, rfl⟩
    rfl

/-- R86: bit `b` of lane `j` of the mask. -/
theorem laneMask_getLsbD_lane (c : Config) (hash : Hash) (j : Fin 8) {b : ℕ} (hb : b < 32) :
    (laneMask c (loOf hash)).getLsbD (32 * j.val + b) = decide (b = specBit c hash j) := by
  rw [laneMask_getLsbD]
  simp only [derivedPosition_eq_iff c hash _ j hb, exists_eq_left]

/-- R86: lane `j` of the mask. -/
theorem laneOf_laneMask (c : Config) (hash : Hash) (j : Fin 8) :
    laneOf (laneMask c (loOf hash)) j = 1#32 <<< specBit c hash j := by
  apply BitVec.eq_of_getLsbD_eq
  intro b hb
  rw [laneOf_getLsbD, laneMask_getLsbD_lane c hash j hb, ← BitVec.twoPow_eq, BitVec.getLsbD_twoPow]
  simp only [hb, specBit_lt, eq_comm]

/-- R84: the lanes derive different positions. -/
theorem derivedPosition_injective (c : Config) (lo : Word32) : Function.Injective (derivedPosition c lo) := by
  intro i j h
  have bi := (bitIndex (c.salt i) lo).isLt
  have bj := (bitIndex (c.salt j) lo).isLt
  simp only [derivedPosition, lanePosition] at h
  omega

/-- R86: the mask has eight bits, the images of the eight lanes under an injective function. -/
theorem countP_laneMask (c : Config) (lo : Word32) : ((List.range 256).countP fun k => (laneMask c lo).getLsbD k) = 8 := by
  have positions : (List.range 256).toFinset.filter (fun k => (laneMask c lo).getLsbD k = true) =
      Finset.univ.image (derivedPosition c lo) := by
    ext k
    rw [Finset.mem_filter, List.mem_toFinset, List.mem_range, laneMask_getLsbD, decide_eq_true_iff, Finset.mem_image]
    simp only [Finset.mem_univ, true_and, and_iff_right_iff_imp]
    rintro ⟨j, rfl⟩
    exact derivedPosition_lt c lo j
  have count := (List.nodup_range (n := 256)).card_eq_countP (P := fun k => (laneMask c lo).getLsbD k = true)
  simp only [Bool.decide_eq_true] at count
  rw [← count, positions, Finset.card_image_of_injective _ (derivedPosition_injective c lo),
    Finset.card_univ, Fintype.card_fin]

/-- R86: the example of `LO = 0`, bit 0 of every lane. -/
theorem laneMask_lo_zero (c : Config) :
    laneMask c 0#32 = 0x0000000100000001000000010000000100000001000000010000000100000001#256 := by
  have first : ∀ j, derivedPosition c 0#32 j = 32 * j.val := fun j => by
    rw [derivedPosition, bitIndex_lo_zero]
    rfl
  simp only [laneMask, first]
  rfl

/-- Settles O22: the set bits are the derived positions, one in each lane. -/
theorem laneMaskHasOneBitInEachLane : Obligations.LaneMaskHasOneBitInEachLane := by
  intro c hash
  refine ⟨laneOf_laneMask c hash, fun j b hb => laneMask_getLsbD_lane c hash j hb, countP_laneMask c _, fun h => ?_⟩
  have lo : loOf hash = 0#32 := BitVec.eq_of_toNat_eq ((loOf_toNat hash).trans h)
  rw [lo, laneMask_lo_zero]

/-! ### Set and test, lane by lane (R87) -/

/-- R44: the lanes of an OR. -/
theorem laneOf_or (v w : Block) (j : Fin 8) : laneOf (v ||| w) j = laneOf v j ||| laneOf w j :=
  BitVec.extractLsb'_or

/-- Testing a word against one bit. -/
theorem and_bit_ne_zero_iff (w : Word32) {k : ℕ} (hk : k < 32) : w &&& 1#32 <<< k ≠ 0#32 ↔ w.getLsbD k = true := by
  have bit : BitVec.twoPow 32 k ≠ 0#32 := fun e => by
    have := congrArg (BitVec.getLsbD · k) e
    simp [hk] at this
  rw [← BitVec.twoPow_eq, BitVec.and_twoPow]
  by_cases h : w.getLsbD k = true <;> simp [h, bit]

/-- R87: the test of one lane is the test of the block at the lane's position. -/
theorem laneOf_and_bit_ne_zero_iff (c : Config) (hash : Hash) (w : Block) (j : Fin 8) :
    laneOf w j &&& 1#32 <<< specBit c hash j ≠ 0#32 ↔ w.getLsbD (derivedPosition c (loOf hash) j) = true := by
  rw [and_bit_ne_zero_iff _ (specBit_lt c hash j), laneOf_getLsbD, decide_eq_true (specBit_lt c hash j), Bool.true_and,
    derivedPosition_loOf]

/-- Settles O23: OR works lane by lane, and the test of a block is the conjunction of the tests of its lanes. -/
theorem setAndTestWorkLaneByLane : Obligations.SetAndTestWorkLaneByLane := by
  intro c hash w
  refine ⟨laneOf_laneMask c hash, fun j => ?_, ?_⟩
  · rw [laneOf_or, laneOf_laneMask]
  · simp only [laneOf_and_bit_ne_zero_iff, matchFlag_iff]

end Sys2Proof.Machine
end

section
/-! Building an engine (00_scope.md R7, 40_datapath.md R89): the parameter checks of elaboration, and the salts of an engine. -/

namespace Sys2Proof.Machine

/-- R7: a legal build passes all three checks. -/
theorem RawConfig.wf_iff {r : RawConfig} :
    r.wf = true ↔ r.saltsLegal = true ∧ r.capacityLegal = true ∧ r.depthLegal = true := by
  rw [RawConfig.wf, Bool.and_eq_true, Bool.and_eq_true, and_assoc]

/-- R89, D32: the salts are checked first. -/
theorem elaborate_illegalSalts {r : RawConfig} (hs : r.saltsLegal = false) (cfg : Word32) :
    elaborate r cfg = .refused .illegalSalts := by
  simp [elaborate, hs]

/-- R7: then the capacity. -/
theorem elaborate_illegalCapacity {r : RawConfig} (hs : r.saltsLegal = true) (hc : r.capacityLegal = false)
    (cfg : Word32) : elaborate r cfg = .refused .illegalCapacity := by
  simp [elaborate, hs, hc]

/-- R7: then the depth. -/
theorem elaborate_illegalDepth {r : RawConfig} (hs : r.saltsLegal = true) (hc : r.capacityLegal = true)
    (hd : r.depthLegal = false) (cfg : Word32) : elaborate r cfg = .refused .illegalDepth := by
  simp [elaborate, hs, hc, hd]

/-- D32: a legal build is the engine of exactly its parameters, right after a reset. -/
theorem elaborate_of_wf {r : RawConfig} (h : r.wf = true) (cfg : Word32) :
    ∃ c : Config, elaborate r cfg = .next (afterReset c cfg) ∧ c.salts.toList = r.salts ∧
      c.maxBlocks.toNat = r.maxBlocks ∧ c.rspDepth = r.rspDepth := by
  obtain ⟨hs, hc, hd⟩ := RawConfig.wf_iff.mp h
  rw [elaborate, dif_pos hs, dif_pos hc, dif_pos hd]
  exact ⟨_, rfl, by simp [saltVector], by simp, rfl⟩

/-- R89: the salts of two lanes differ. -/
theorem Config.salt_injective (c : Config) : Function.Injective c.salt := by
  have distinct : c.salts.toList.Nodup := of_decide_eq_true c.salts_distinct
  intro j k h
  exact Fin.ext ((distinct.getElem_inj_iff (hi := by simp) (hj := by simp)).mp (by simpa [Config.salt] using h))

/-- Settles O47: each check refuses by its own name, and the constraints are fields of every `Config`. -/
theorem illegalBuildsAreRefused : Obligations.IllegalBuildsAreRefused :=
  ⟨fun _ cfg => ⟨fun hs => elaborate_illegalSalts hs cfg, fun hs hc => elaborate_illegalCapacity hs hc cfg,
      fun hs hc hd => elaborate_illegalDepth hs hc hd cfg, fun h => elaborate_of_wf h cfg⟩,
    fun c j _ => ⟨Config.salt_odd c j, fun ne e => ne (Config.salt_injective c e)⟩⟩

end Sys2Proof.Machine
end

section
/-! INSERT and QUERY (41_block_ops.md): what each answers and leaves (R100, R105), and the properties that follow from the two
rules: no false negatives (R110), saturation (R111), order-independence (R112), the closed form of a query (R113), and the one
block word a command depends on (R114). -/

namespace Sys2Proof.Machine

/-! ### The test of a block against the mask of a hash (R105) -/

theorem and_eq_right_iff_getLsbD {b m : Block} :
    b &&& m = m ↔ ∀ k, m.getLsbD k = true → b.getLsbD k = true := by
  constructor
  · intro h k hk
    rw [← h, BitVec.getLsbD_and, Bool.and_eq_true] at hk
    exact hk.1
  · intro h
    refine BitVec.eq_of_getLsbD_eq fun k _ => ?_
    simpa using h k

theorem or_eq_left_of_and_eq_right {b m : Block} (h : b &&& m = m) : b ||| m = b := by
  rw [and_eq_right_iff_getLsbD] at h
  refine BitVec.eq_of_getLsbD_eq fun k _ => ?_
  simpa using h k

theorem and_not_eq_zero_iff {b m : Block} : m &&& ~~~b = 0#256 ↔ b &&& m = m := by
  constructor
  · intro h
    rw [and_eq_right_iff_getLsbD]
    intro k hk
    have bit := congrArg (BitVec.getLsbD · k) h
    simpa [hk, BitVec.lt_of_getLsbD hk] using bit
  · intro h
    rw [← h, BitVec.and_comm b, BitVec.and_assoc, BitVec.and_not_self]
    exact BitVec.and_zero

/-- R105: the reduction over the lanes is `(B & M) == M`. -/
theorem matchFlag_iff_and_laneMask {c : Config} {lo : Word32} {b : Block} :
    matchFlag c lo b = true ↔ b &&& laneMask c lo = laneMask c lo := by
  rw [matchFlag_iff, and_eq_right_iff_getLsbD]
  simp only [laneMask_getLsbD, decide_eq_true_iff, forall_exists_index, forall_apply_eq_imp_iff]

/-- R105: the bits that are tested, on integers. -/
theorem matchFlag_iff_specBit {c : Config} {hash : Hash} {b : Block} :
    matchFlag c (loOf hash) b = true ↔ ∀ j : Fin 8, b.getLsbD (32 * j.val + specBit c hash j) = true := by
  simp only [matchFlag_iff, derivedPosition_loOf]

/-- R111: MATCH is monotone in the block word. -/
theorem matchFlag_mono {c : Config} {lo : Word32} {b b' : Block} (rise : ∀ k, b.getLsbD k = true → b'.getLsbD k = true)
    (h : matchFlag c lo b = true) : matchFlag c lo b' = true :=
  matchFlag_iff.mpr fun j => rise _ (matchFlag_iff.mp h j)

/-- R105: no bit of an empty block is set. -/
theorem matchFlag_zero (c : Config) (lo : Word32) : matchFlag c lo 0#256 = false := by
  rw [Bool.eq_false_iff, ne_eq, matchFlag_iff]
  intro h
  simpa using h 0

/-- R105: every bit of a saturated block is set. -/
theorem matchFlag_allOnes (c : Config) (lo : Word32) : matchFlag c lo (BitVec.allOnes 256) = true := by
  rw [matchFlag_iff_and_laneMask, BitVec.allOnes_and]

/-! ### The masks of inserted hashes (R112, R113) -/

/-- R112: what an INSERT of `hash` ORs into block `i`. -/
def blockMask (c : Config) (numBlocks : Word32) (hash : Hash) (i : Nat) : Block :=
  if (blockIndex numBlocks (hiOf hash)).toNat = i then laneMask c (loOf hash) else 0#256

theorem unionMask_cons (c : Config) (n : Word32) (g : Hash) (gs : List Hash) (i : Nat) :
    unionMask c n (g :: gs) i = blockMask c n g i ||| unionMask c n gs i := by
  rw [blockMask, unionMask, List.foldr_cons, ← unionMask]
  split
  · rfl
  · rw [BitVec.zero_or]

theorem unionMask_getLsbD (c : Config) (n : Word32) (inserted : List Hash) (i k : Nat) :
    (unionMask c n inserted i).getLsbD k = true ↔ ∃ g ∈ inserted, (blockMask c n g i).getLsbD k = true := by
  induction inserted with
  | nil => simp [unionMask]
  | cons g gs ih => rw [unionMask_cons, BitVec.getLsbD_or, Bool.or_eq_true, ih, List.exists_mem_cons_iff]

/-- R112: neither the order of the hashes nor how often each stands in the list matters. -/
theorem unionMask_congr {hs hs' : List Hash} (same : ∀ h, h ∈ hs ↔ h ∈ hs') (c : Config) (n : Word32) (i : Nat) :
    unionMask c n hs i = unionMask c n hs' i := by
  refine BitVec.eq_of_getLsbD_eq fun k _ => ?_
  rw [Bool.eq_iff_iff, unionMask_getLsbD, unionMask_getLsbD]
  simp only [same]

/-- R113: which hashes set the bit that lane `j` derives from another hash, in a given block. -/
theorem blockMask_getLsbD_specBit (c : Config) (n : Word32) (g hash : Hash) (i : Nat) (j : Fin 8) :
    (blockMask c n g i).getLsbD (32 * j.val + specBit c hash j) = true ↔
      specIndex n g = i ∧ specBit c g j = specBit c hash j := by
  rw [blockMask, blockIndex_hiOf_toNat]
  split
  · next hi => simp [hi, laneMask_getLsbD_lane c g j (specBit_lt c hash j), eq_comm]
  · next hi => simp [hi]

/-! ### States in which block commands are answered OK -/

/-- What INSERT and QUERY need of a state to be answered OK. Room in RSPQ is no part of it: the accept step asks for it (R60),
not the command. -/
structure ServesBlocks (s : State) : Prop where
  cfgErr : s.cfgErr = false
  blk_wf : Memory.wf s.blk = true
  accessible : ∀ hash, accessible s (selectedBlock s hash) = true

theorem State.Inv.servesBlocks {s : State} (h : s.Inv) (hc : s.cfgErr = false) : ServesBlocks s :=
  ⟨hc, h.blk_wf, h.selectedBlock_accessible hc⟩

/-- R80: the selected block on integers. -/
theorem selectedBlock_toNat (s : State) (hash : Hash) : (selectedBlock s hash).toNat = specIndex s.numBlocks hash :=
  blockIndex_hiOf_toNat _ _

/-- R100: the block memory that an INSERT of `hash` leaves. -/
def insertedBlk (s : State) (hash : Hash) : Memory :=
  Memory.write s.blk (selectedBlock s hash).toNat
    (Memory.read s.blk (selectedBlock s hash).toNat ||| laneMask s.config (loOf hash))

/-- R112: word by word, an INSERT ORs its mask in. -/
theorem read_insertedBlk {s : State} (hm : Memory.wf s.blk = true) (hash : Hash) (i : Nat) :
    Memory.read (insertedBlk s hash) i = Memory.read s.blk i ||| blockMask s.config s.numBlocks hash i := by
  rw [insertedBlk, Memory.read_write hm, blockMask, ← selectedBlock]
  by_cases hi : i = (selectedBlock s hash).toNat
  · rw [if_pos hi, if_pos hi.symm, hi]
  · rw [if_neg hi, if_neg (Ne.symm hi), BitVec.or_zero]

/-- R100: in the block it selects, an INSERT ORs the lane mask in. -/
theorem read_insertedBlk_selected {s : State} (hm : Memory.wf s.blk = true) (hash : Hash) :
    Memory.read (insertedBlk s hash) (selectedBlock s hash).toNat =
      Memory.read s.blk (selectedBlock s hash).toNat ||| laneMask s.config (loOf hash) := by
  rw [insertedBlk, Memory.read_write hm, if_pos rfl]

/-- R100: an INSERT of a hash that matches already changes nothing. -/
theorem insertedBlk_of_matchFlag {s : State} (hm : Memory.wf s.blk = true) {hash : Hash}
    (h : matchFlag s.config (loOf hash) (Memory.read s.blk (selectedBlock s hash).toNat) = true) :
    insertedBlk s hash = s.blk := by
  rw [insertedBlk, or_eq_left_of_and_eq_right (matchFlag_iff_and_laneMask.mp h), Memory.write_read_self hm]

/-- R100: an INSERT answered OK, with all that it writes. -/
theorem ServesBlocks.exec_insert {s : State} (h : ServesBlocks s) (hash : Hash) :
    exec (.insert hash) s = .next { s with blk := insertedBlk s hash, rspq := s.rspq ++ [responseWord opInsert .ok false] } :=
  execInsert_ok h.cfgErr (h.accessible hash)

/-- R105: a QUERY answered OK, with all that it writes. -/
theorem ServesBlocks.exec_query {s : State} (h : ServesBlocks s) (hash : Hash) :
    exec (.query hash) s = .next { s with rspq := s.rspq ++ [responseWord opQuery .ok
      (matchFlag s.config (loOf hash) (Memory.read s.blk (selectedBlock s hash).toNat))] } :=
  execQuery_ok h.cfgErr (h.accessible hash)

/-- The state after an INSERT answers block commands OK again. -/
theorem ServesBlocks.insert {s : State} (h : ServesBlocks s) (hash : Hash) (q : List RspWord) :
    ServesBlocks { s with blk := insertedBlk s hash, rspq := q } :=
  ⟨h.cfgErr, Memory.wf_write h.blk_wf _ _, h.accessible⟩

/-- R105: when a QUERY that is answered OK answers with this MATCH. -/
theorem ServesBlocks.answersOk_iff {s : State} (h : ServesBlocks s) {hash : Hash} {hit : Bool} :
    AnswersOk s hash hit ↔
      matchFlag s.config (loOf hash) (Memory.read s.blk (specIndex s.numBlocks hash)) = hit := by
  simp only [Machine.answersOk_iff, h.cfgErr, h.accessible hash, selectedBlock_toNat, true_and]

/-! ### INSERT and QUERY (R100, R105) -/

/-- Settles O26: the word written back is the old one with the lane mask ORed in. -/
theorem insertSetsItsEightBitsAndNothingElse : Obligations.InsertSetsItsEightBitsAndNothingElse := by
  intro s hash hs
  refine ⟨rfl, fun hc => execInsert_cfgErr hc hash, fun hc => ?_⟩
  have h := hs.servesBlocks hc
  refine ⟨insertedBlk s hash, h.exec_insert hash, selectedBlock_toNat s hash, fun i hi => ?_, fun j b hb => ?_, fun all => ?_⟩
  · rw [insertedBlk, Memory.read_write h.blk_wf, if_neg hi]
  · rw [read_insertedBlk_selected h.blk_wf, BitVec.getLsbD_or, laneMask_getLsbD_lane _ _ _ hb]
  · exact insertedBlk_of_matchFlag h.blk_wf (matchFlag_iff_specBit.mpr all)

/-- Settles O27: the MATCH that is answered is the reduction over the lanes, which is the comparison with the mask. -/
theorem queryAnswersWhetherAllEightBitsAreSet : Obligations.QueryAnswersWhetherAllEightBitsAreSet := by
  intro s hash hs
  refine ⟨rfl, fun hc => execQuery_cfgErr hc hash, fun hc => ?_⟩
  have word : ∀ hit : Bool, responseWord opQuery .ok hit = if hit then 0b01001#5 else 0b01000#5 := by decide
  refine ⟨_, ?_, matchFlag_iff_specBit, matchFlag_iff_and_laneMask⟩
  rw [(hs.servesBlocks hc).exec_query hash, selectedBlock_toNat, word]

/-- Settles O28: no bit of an empty memory is set, and every bit of a saturated block is. -/
theorem emptyFilterMissesAndSaturatedBlockHits : Obligations.EmptyFilterMissesAndSaturatedBlockHits := by
  constructor
  · intro c cfg hash hc
    have hs : (afterReset c cfg).Inv := resetInit_inv cfg _
    exact (hs.servesBlocks hc).answersOk_iff.mpr (matchFlag_zero c _)
  · intro s hash hs hc saturated
    refine (hs.servesBlocks hc).answersOk_iff.mpr ?_
    rw [saturated, matchFlag_allOnes]

/-! ### The matching hashes between resets (R110, R111) -/

/-- R111: a step without a reset action loses no matching hash. -/
theorem step_keeps_answersMatch {s t : State} {hash : Hash} (hs : s.Inv) (hf : s.nextResetFree = true)
    (h : step s = .next t) (hit : AnswersMatch s hash) : AnswersMatch t hash := by
  obtain ⟨rise, _, hn, hc, _⟩ := blockBitsOnlyRiseBetweenResets s t hs hf h
  obtain ⟨noErr, _, _⟩ := answersOk_iff.mp (answersMatch_iff_answersOk.mp hit)
  have served := hs.servesBlocks noErr
  have served' := (everyStepKeepsTheInvariant s t hs h).servesBlocks (hc.trans noErr)
  rw [answersMatch_iff_answersOk, served.answersOk_iff] at hit
  rw [answersMatch_iff_answersOk, served'.answersOk_iff, noStepChangesTheBuild s t h, hn]
  exact matchFlag_mono (rise _) hit

/-- Settles O30, by the induction along reset-free runs. -/
theorem matchesNeverShrinkBetweenResets : Obligations.MatchesNeverShrinkBetweenResets := by
  intro s t hash k hs hf h hit
  exact (reaches_keeps_resetFree (P := fun u => u.Inv ∧ AnswersMatch u hash)
    (fun u v ⟨hu, hit⟩ hf h => ⟨everyStepKeepsTheInvariant u v hu h, step_keeps_answersMatch hu hf h hit⟩)
    ⟨hs, hit⟩ hf h).2

/-- R60, R100: the step that performs an INSERT. -/
theorem step_of_performedInsert {s : State} {hash : Hash} (h : performedInsert s = some hash) :
    s.cfgErr = false ∧ step s = exec (.insert hash) (consumeCommand (popTurn s)) := by
  obtain ⟨ts, w, ht, hw, hd, ready, hc⟩ := performedInsert_eq_some.mp h
  obtain ⟨ws, hstream⟩ := List.head?_eq_some_iff.mp hw
  exact ⟨hc, by rw [step_accept ht hstream ready, hd]⟩

/-- Settles O29: the hash matches right after its INSERT, and O30 keeps it so. -/
theorem noFalseNegatives : Obligations.NoFalseNegatives := by
  intro s t u hash k hs hp h hf hrun
  obtain ⟨hc, hstep⟩ := step_of_performedInsert hp
  obtain ⟨t', ht', hit⟩ := insert_then_answersMatch hs.consumeCommand_popTurn hc hash
  obtain rfl : t' = t := by simpa [hstep, ht'] using h
  exact matchesNeverShrinkBetweenResets _ u hash k (everyStepKeepsTheInvariant s _ hs h) hf hrun hit

/-! ### Sequences of INSERTs (R112) -/

/-- R112: a list of INSERTs completes and ORs all its masks in. -/
theorem insertAll_read {s : State} (h : ServesBlocks s) (hs : List Hash) :
    ∃ t, insertAll hs s = .next t ∧ ServesBlocks t ∧
      ∀ i, Memory.read t.blk i = Memory.read s.blk i ||| unionMask s.config s.numBlocks hs i := by
  induction hs generalizing s with
  | nil => exact ⟨s, rfl, h, fun i => by rw [unionMask, List.foldr_nil, BitVec.or_zero]⟩
  | cons g gs ih =>
    obtain ⟨t, ht, served, hread⟩ := ih (h.insert g (s.rspq ++ [responseWord opInsert .ok false]))
    refine ⟨t, by rw [insertAll, h.exec_insert]; exact ht, served, fun i => ?_⟩
    rw [hread, read_insertedBlk h.blk_wf, unionMask_cons, BitVec.or_assoc]

/-- Settles O31: lists with the same members OR the same masks in, and canonical memories that read alike are equal. -/
theorem insertsCommuteAndAreIdempotent : Obligations.InsertsCommuteAndAreIdempotent := by
  intro s hs hs' inv hc same
  obtain ⟨t, ht, served, hread⟩ := insertAll_read (inv.servesBlocks hc) hs
  obtain ⟨t', ht', served', hread'⟩ := insertAll_read (inv.servesBlocks hc) hs'
  have alike : ∀ i, Memory.read t.blk i = Memory.read t'.blk i := fun i => by
    rw [hread, hread', unionMask_congr same]
  exact ⟨t, t', ht, ht', memoriesThatReadAlikeAreEqual _ _ served.blk_wf served'.blk_wf alike, hread⟩

/-! ### The closed form of a query (R113) -/

/-- R161: no hash is in the memory after a reset action. -/
theorem represents_nil_of_reset {s t : State} {cfg : Word32} {ts : List Turn} (ht : s.host.turns = .reset cfg :: ts)
    (h : step s = .next t) : Represents t [] := by
  have hstep : step s = .next (beginRun (resetInit cfg (popTurn s))) := by simp [step, ht]
  obtain rfl : beginRun (resetInit cfg (popTurn s)) = t := by simpa [hstep] using h
  intro i
  rfl

/-- R100, R47: the block memory after the step that performs an INSERT. -/
theorem step_blk_of_performedInsert {s t : State} {hash : Hash} (hs : s.Inv) (hp : performedInsert s = some hash)
    (h : step s = .next t) : t.blk = insertedBlk s hash := by
  obtain ⟨hc, hstep⟩ := step_of_performedInsert hp
  rw [hstep, (hs.consumeCommand_popTurn.servesBlocks hc).exec_insert] at h
  cases h
  rfl

/-- R113: between resets a step adds the hash of the INSERT it performs, and no other. -/
theorem step_represents {s t : State} {inserted : List Hash} (hs : s.Inv) (hr : Represents s inserted)
    (hf : s.nextResetFree = true) (h : step s = .next t) : Represents t ((performedInsert s).toList ++ inserted) := by
  obtain ⟨hn, _⟩ := step_registers_of_resetFree hf h
  intro i
  rw [noStepChangesTheBuild s t h, hn]
  cases hp : performedInsert s with
  | none => rw [step_blk_of_performedInsert_none hf hp h, hr i, Option.toList_none, List.nil_append]
  | some hash =>
    rw [step_blk_of_performedInsert hs hp h, read_insertedBlk hs.blk_wf, hr i, BitVec.or_comm, Option.toList_some,
      List.singleton_append, unionMask_cons]

/-- R113: a QUERY tests the mask of its hash against the OR of the inserted masks. -/
theorem answersMatch_iff_of_represents {s : State} {inserted : List Hash} (hs : s.Inv) (hr : Represents s inserted)
    (hc : s.cfgErr = false) (hash : Hash) :
    AnswersMatch s hash ↔
      matchFlag s.config (loOf hash) (unionMask s.config s.numBlocks inserted (specIndex s.numBlocks hash)) = true := by
  rw [answersMatch_iff_answersOk, (hs.servesBlocks hc).answersOk_iff, hr]

/-- Settles O32: every step keeps the memory the OR of the inserted masks, and a QUERY tests its eight bits there. -/
theorem queryHasTheClosedFormOfTheInsertedHashes : Obligations.QueryHasTheClosedFormOfTheInsertedHashes := by
  refine ⟨fun s t cfg ts ht h => represents_nil_of_reset ht h, fun s t inserted hs hr hf h => step_represents hs hr hf h,
    fun s inserted hash hs hr hc => ?_⟩
  rw [answersMatch_iff_of_represents hs hr hc]
  constructor
  · simp only [matchFlag_iff_specBit, unionMask_getLsbD, blockMask_getLsbD_specBit]
  · rw [and_not_eq_zero_iff, matchFlag_iff_and_laneMask]

/-! ### One block word (R90, R114) -/

/-- R105, R141: the response to a QUERY, as a function of the block word it reads. -/
def queryResponse (c : Config) (cfgErr : Bool) (hash : Hash) (b : Block) : RspWord :=
  if cfgErr then responseWord opQuery .cfgErr false else responseWord opQuery .ok (matchFlag c (loOf hash) b)

/-- R100, R141: the word an INSERT leaves in its block, as a function of the word it reads. -/
def insertedWord (c : Config) (cfgErr : Bool) (hash : Hash) (b : Block) : Block :=
  if cfgErr then b else b ||| laneMask c (loOf hash)

theorem exec_query_queryResponse {s : State} (hs : s.Inv) (hash : Hash) :
    ∃ t, exec (.query hash) s = .next t ∧ t.rspq = s.rspq ++
      [queryResponse s.config s.cfgErr hash (Memory.read s.blk (specIndex s.numBlocks hash))] := by
  rw [← selectedBlock_toNat]
  cases hc : s.cfgErr with
  | true => exact ⟨_, execQuery_cfgErr hc hash, rfl⟩
  | false => exact ⟨_, (hs.servesBlocks hc).exec_query hash, rfl⟩

theorem exec_insert_insertedWord {s : State} (hs : s.Inv) (hash : Hash) :
    ∃ t, exec (.insert hash) s = .next t ∧ Memory.read t.blk (specIndex s.numBlocks hash) =
      insertedWord s.config s.cfgErr hash (Memory.read s.blk (specIndex s.numBlocks hash)) := by
  rw [← selectedBlock_toNat]
  cases hc : s.cfgErr with
  | true => exact ⟨_, execInsert_cfgErr hc hash, rfl⟩
  | false => exact ⟨_, (hs.servesBlocks hc).exec_insert hash, read_insertedBlk_selected hs.blk_wf hash⟩

/-- Settles O34: response and new word are functions of the build, CFG_ERR, the hash and the selected word. -/
theorem commandsReadOneBlockWordOnly : Obligations.CommandsReadOneBlockWordOnly := by
  intro s s' hash hs hs' hconfig hn hc hword
  obtain ⟨t, ht, hq⟩ := exec_query_queryResponse hs hash
  obtain ⟨t', ht', hq'⟩ := exec_query_queryResponse hs' hash
  obtain ⟨u, hu, hb⟩ := exec_insert_insertedWord hs hash
  obtain ⟨u', hu', hb'⟩ := exec_insert_insertedWord hs' hash
  rw [hconfig, hn, hc, hword] at hq' hb'
  exact ⟨_, t, t', u, u', ht, ht', hq, hq', hu, hu', hb'.trans hb.symm⟩

end Sys2Proof.Machine
end

section
/-! The reserved commands and the status port (42_control.md): what a reserved command answers and leaves (R120), and the map a
status read delivers (R124). -/

namespace Sys2Proof.Machine

/-! ### Reserved commands (R120) -/

/-- R120, R64: the words a reserved `.cmd 0` is answered with. -/
theorem answerReserved_opReserved00 (s : State) :
    answerReserved opReserved00 s = { s with rspq := s.rspq ++ [if s.cfgErr then 0b00100#5 else 0b00010#5] } := by
  rw [answerReserved_eq, respond]
  cases s.cfgErr <;> rfl

/-- R120, R64: the words a reserved `.cmd 3` is answered with. -/
theorem answerReserved_opReserved11 (s : State) :
    answerReserved opReserved11 s = { s with rspq := s.rspq ++ [if s.cfgErr then 0b11100#5 else 0b11010#5] } := by
  rw [answerReserved_eq, respond]
  cases s.cfgErr <;> rfl

/-- R67, R120: a word whose OP is reserved is performed as a reserved command of that OP, whatever its HASH. -/
theorem exec_command_reserved {w : CmdWord} (h : w.toNat / 2 ^ 64 = 0 ∨ w.toNat / 2 ^ 64 = 3) (s : State) :
    exec (decode (.command w)) s = .next (answerReserved (opField w) s) := by
  rw [← opField_toNat] at h
  rcases decode_command_cases w with ⟨ho, hd⟩ | ⟨ho, hd⟩ | ⟨ho, hd⟩ | ⟨ho, hd⟩
  · simp [ho, opQuery] at h
  · simp [ho, opInsert] at h
  · rw [hd, ho, exec, execReserved00]
  · rw [hd, ho, exec, execReserved11]

/-- Settles O36: a reserved command completes with its one response, and an accept step performs it where the word has left the
stream. -/
theorem reservedCommandsAnswerIllegalOp : Obligations.ReservedCommandsAnswerIllegalOp := by
  refine ⟨fun s hash => ⟨congrArg _ (answerReserved_opReserved00 s), congrArg _ (answerReserved_opReserved11 s)⟩,
    fun s w ws ts ht hs ready reserved => ⟨responseWord (opField w) (if s.cfgErr then .cfgErr else .illegalOp) false, ?_⟩⟩
  rw [step_accept ht hs ready, exec_command_reserved reserved, answerReserved_eq, consumeCommand, popTurn_eq ht]
  simp only [respond, hs, List.tail_cons]

/-! ### The status port (R124) -/

/-- R66: a status read out of reset leaves its datum with the host and nothing else. -/
theorem exec_csrRead_of_rstN {s : State} (h : s.rstN = true) (a : CsrAddr) :
    exec (.csrRead a) s = .next { s with host := { s.host with reads := s.host.reads ++ [(a, csr s a)] } } := by
  simp only [exec, execCsrRead, readPort_eq, csrRdata, h, if_true]

/-- R124: NUM_BLOCKS. -/
theorem csr_numBlocks (s : State) : csr s 0x0#4 = s.numBlocks := rfl

/-- R124: STATUS is CFG_ERR in bit 0, bits 31:1 zero. -/
theorem csr_status_toNat (s : State) : (csr s 0x1#4).toNat = if s.cfgErr then 1 else 0 := by
  have status : csr s 0x1#4 = BitVec.setWidth 32 (BitVec.ofBool s.cfgErr) := rfl
  rw [status]
  cases s.cfgErr <;> rfl

/-- R124: CAPACITY. -/
theorem csr_capacity (s : State) : csr s 0x2#4 = s.config.maxBlocks := rfl

/-- R124: the addresses 0x3 to 0xF are reserved and read 0. -/
theorem csr_reserved (s : State) {a : CsrAddr} (h : 3 ≤ a.toNat) : csr s a = 0#32 := by
  have named : ∀ b : CsrAddr, b.toNat < 3 → a ≠ b := fun b hb e => by rw [e] at h; omega
  rw [csr, if_neg (named _ (by decide)), if_neg (named _ (by decide)), if_neg (named _ (by decide))]

/-- Settles O40: the datum is the map's word at the address. -/
theorem statusReadDeliversTheMapAndChangesNothing : Obligations.StatusReadDeliversTheMapAndChangesNothing := by
  intro s a hrst
  have address : ∀ b : CsrAddr, a.toNat = b.toNat → a = b := fun _ => BitVec.eq_of_toNat_eq
  refine ⟨csr s a, exec_csrRead_of_rstN hrst a, fun h0 => ?_, fun h1 => ?_, fun h2 => ?_, csr_reserved s⟩
  · rw [address 0x0#4 h0, csr_numBlocks]
  · rw [address 0x1#4 h1, csr_status_toNat]
  · rw [address 0x2#4 h2, csr_capacity]

end Sys2Proof.Machine
end

section
/-! What stands in place of exceptions (60_exceptions.md): the one status of each command (R143), CFG_ERR before all else (R141),
and that no step and no run stops (R140, R146). -/

namespace Sys2Proof.Machine

/-! ### The fields of a response on integers (R64, R65) -/

theorem responseWord_toNat (op : OpField) (st : Status) (hit : Bool) :
    (responseWord op st hit).toNat = op.toNat * 8 + (statusCode st).toNat * 2 + hit.toNat := by
  revert op
  cases st <;> cases hit <;> decide

/-- R64: `STATUS` on integers, of the response word with that status. -/
theorem responseWord_toNat_status (op : OpField) (st : Status) (hit : Bool) :
    (responseWord op st hit).toNat / 2 % 4 = (statusCode st).toNat := by
  have status := (statusCode st).isLt
  have flag := hit.toNat_lt
  rw [responseWord_toNat]
  omega

/-- R64: `MATCH` on integers. -/
theorem responseWord_toNat_match (op : OpField) (st : Status) (hit : Bool) :
    (responseWord op st hit).toNat % 2 = hit.toNat := by
  have flag := hit.toNat_lt
  rw [responseWord_toNat]
  omega

/-! ### What a command does, by its status (R141, R142, R143) -/

/-- R141: in configuration error a command of any OP only answers CFG_ERR. -/
theorem exec_command_cfgErr {s : State} (hc : s.cfgErr = true) (w : CmdWord) :
    exec (decode (.command w)) s = .next (respond (opField w) .cfgErr false s) := by
  have reserved : ∀ op, answerReserved op s = respond op .cfgErr false s := fun op => by
    rw [answerReserved_eq, hc, if_pos rfl]
  rcases decode_command_cases w with ⟨ho, hd⟩ | ⟨ho, hd⟩ | ⟨ho, hd⟩ | ⟨ho, hd⟩
  · rw [hd, ho]; exact execQuery_cfgErr hc _
  · rw [hd, ho]; exact execInsert_cfgErr hc _
  · rw [hd, ho]; exact congrArg _ (reserved _)
  · rw [hd, ho]; exact congrArg _ (reserved _)

/-- R142: without a configuration error a command of a reserved OP only answers ILLEGAL_OP. -/
theorem exec_command_illegalOp {s : State} (hc : s.cfgErr = false) {w : CmdWord}
    (h : ¬ (w.toNat / 2 ^ 64 = 1 ∨ w.toNat / 2 ^ 64 = 2)) :
    exec (decode (.command w)) s = .next (respond (opField w) .illegalOp false s) := by
  have reserved : w.toNat / 2 ^ 64 = 0 ∨ w.toNat / 2 ^ 64 = 3 := by
    have := w.isLt
    omega
  rw [exec_command_reserved reserved, answerReserved_eq, hc, if_neg (by decide)]

/-- R142: without a configuration error QUERY and INSERT are performed and answer OK. -/
theorem ServesBlocks.exec_command_ok {s : State} (h : ServesBlocks s) {w : CmdWord}
    (block : w.toNat / 2 ^ 64 = 1 ∨ w.toNat / 2 ^ 64 = 2) :
    ∃ t hit, exec (decode (.command w)) s = .next t ∧ t.rspq = s.rspq ++ [responseWord (opField w) .ok hit] := by
  rw [← opField_toNat] at block
  rcases decode_command_cases w with ⟨ho, hd⟩ | ⟨ho, hd⟩ | ⟨ho, _⟩ | ⟨ho, _⟩
  · rw [hd, ho]; exact ⟨_, _, h.exec_query _, rfl⟩
  · rw [hd, ho]; exact ⟨_, _, h.exec_insert _, rfl⟩
  · simp [ho, opReserved00] at block
  · simp [ho, opReserved11] at block

/-- Settles O38: CFG_ERR is tested before the OP, and only QUERY and INSERT without it are performed. -/
theorem eachCommandGetsOneStatusByPriority : Obligations.EachCommandGetsOneStatusByPriority := by
  intro s w hs
  have rop : ∀ st hit, (responseWord (opField w) st hit).toNat / 8 = w.toNat / 2 ^ 64 := fun st hit => by
    rw [responseWord_toNat_div_eight, opField_toNat]
  by_cases hc : s.cfgErr = true
  · refine ⟨_, _, exec_command_cfgErr hc w, rfl, rop _ _, ?_, fun _ => ⟨responseWord_toNat_match _ _ _, rfl⟩⟩
    rw [responseWord_toNat_status, if_pos hc]
    rfl
  · have noError : s.cfgErr = false := Bool.eq_false_of_not_eq_true hc
    by_cases block : w.toNat / 2 ^ 64 = 1 ∨ w.toNat / 2 ^ 64 = 2
    · obtain ⟨t, hit, ht, hq⟩ := (hs.servesBlocks noError).exec_command_ok block
      have ok := responseWord_toNat_status (opField w) .ok hit
      refine ⟨t, _, ht, hq, rop _ _, ?_, fun notOk => absurd ok notOk⟩
      rw [ok, if_neg hc, if_pos block]
      rfl
    · refine ⟨_, _, exec_command_illegalOp noError block, rfl, rop _ _, ?_,
        fun _ => ⟨responseWord_toNat_match _ _ _, rfl⟩⟩
      rw [responseWord_toNat_status, if_neg hc, if_neg block]
      rfl

/-- Settles O37: the answer comes before any look at the OP or the blocks, and of the steps only the reset action computes
CFG_ERR. -/
theorem configurationErrorAnswersEveryCommand : Obligations.ConfigurationErrorAnswersEveryCommand := by
  refine ⟨fun s w hc => ⟨_, exec_command_cfgErr hc w, ?_⟩, fun s t h changed => ?_⟩
  · rw [responseWord_toNat, opField_toNat]
    rfl
  · rcases step_engine_cases h with k | ⟨ts, w, _, _, _, he⟩ | ⟨cfg, ts, ht, rfl⟩
    · exact absurd k.cfgErr changed
    · obtain ⟨_, _, same⟩ := exec_command_registers he
      exact absurd same changed
    · refine ⟨cfg, ts, ht, ?_⟩
      rw [← coerceBlocks_toNat]
      exact exceedsCapacity_iff

/-! ### No step and no run stops (R140, R146) -/

/-- R64, R65: no queued response of a state of the invariant stops the host's take. -/
theorem State.Inv.takeResponse_completes {s : State} (h : s.Inv) : ∃ t, takeResponse s = .next t := by
  by_cases valid : rspValid s = true
  · obtain ⟨hrst, nonempty⟩ := rspValid_iff.mp valid
    obtain ⟨r, rs, hq⟩ := List.exists_cons_of_ne_nil nonempty
    have produced : statusOf r ≠ 0b11#2 := statusOf_ne_reserved_of_legalResponse r (h.rspq_legal r (by simp [hq]))
    exact ⟨_, by rw [takeResponse_of_cons hrst hq, if_neg produced]⟩
  · exact ⟨s, by rw [takeResponse, if_neg valid]⟩

/-- R140: every command of a state of the invariant ends in a response. -/
theorem State.Inv.exec_command_completes {s : State} (h : s.Inv) (w : CmdWord) :
    ∃ t, exec (decode (.command w)) s = .next t := by
  obtain ⟨t, _, ht, _⟩ := eachCommandGetsOneStatusByPriority s w h
  exact ⟨t, ht⟩

/-- R60, R140: an accept turn passes or performs a command. -/
theorem State.Inv.step_accept_completes {s : State} (h : s.Inv) {ts : List Turn} (ht : s.host.turns = .accept :: ts) :
    ∃ t, step s = .next t := by
  cases enabled : acceptEnabled s with
  | false => exact ⟨_, step_accept_of_not_enabled ht enabled⟩
  | true =>
    obtain ⟨ready, offered⟩ := acceptEnabled_iff.mp enabled
    obtain ⟨w, ws, hw⟩ := List.exists_cons_of_ne_nil offered
    rw [step_accept ht hw ready]
    exact h.consumeCommand_popTurn.exec_command_completes w

/-- R140, R146: a step from a state of the invariant answers a next state, whatever its turn. -/
theorem State.Inv.step_completes {s : State} (h : s.Inv) : ∃ t, step s = .next t := by
  have popped : (popTurn s).Inv := h.of_keepsEngine ⟨rfl, rfl, rfl, rfl, .refl _⟩
  cases ht : s.host.turns with
  | nil => exact ⟨s, step_of_no_turns ht⟩
  | cons turn ts =>
    cases turn with
    | accept => exact h.step_accept_completes ht
    | take => rw [step_take ht]; exact popped.takeResponse_completes
    | readStatus a => exact ⟨readPort a (popTurn s), step_readStatus ht⟩
    | holdReset => exact ⟨enterReset (popTurn s), by rw [step, ht]⟩
    | reset cfg => exact ⟨beginRun (resetInit cfg (popTurn s)), by rw [step, ht]⟩

/-- Settles O11: no step from a state of the invariant stops, every step keeps the invariant, and so, by induction on the
number of steps, no run stops. -/
theorem everyRunIsSafe : Obligations.EveryRunIsSafe := by
  refine ⟨fun s hs => hs.step_completes, fun s hs k => ?_⟩
  induction k generalizing s with
  | zero => exact ⟨s, reaches_zero.mpr rfl⟩
  | succ k ih =>
    obtain ⟨u, hu⟩ := hs.step_completes
    obtain ⟨t, ht⟩ := ih u (everyStepKeepsTheInvariant s u hs hu)
    exact ⟨t, reaches_succ.mpr ⟨u, hu, ht⟩⟩

end Sys2Proof.Machine
end

section
/-! Reset and boot (70_reset_and_hazards.md R160 to R163, R169): the reset action, the engine held in reset, and what the host
reads back after the boot turns. -/

namespace Sys2Proof.Machine

/-! ### The reset action (R161, R162, R163) -/

/-- R161: the step of a reset action. -/
theorem step_reset {s : State} {cfg : Word32} {ts : List Turn} (ht : s.host.turns = .reset cfg :: ts) :
    step s = .next (beginRun (resetInit cfg (popTurn s))) := by
  simp [step, ht]

/-- Settles O13: State.reset is a build after a reset, and the initialisation establishes the invariant of every build. -/
theorem invariantHoldsAfterReset : Obligations.InvariantHoldsAfterReset := by
  refine ⟨?_, fun c cfg => resetInit_inv cfg _⟩
  rw [reset_eq_afterReset]
  exact resetInit_inv 0#32 _

/-- R162: right after the initialisation commands are accepted, whatever the depth of RSPQ. -/
theorem cmdReady_resetInit (cfg : Word32) (s : State) : cmdReady (resetInit cfg s) = true :=
  cmdReady_iff.mpr ⟨rfl, s.config.rspDepth_pos⟩

/-- Settles O42: the fields of the state that the initialisation leaves. -/
theorem resetBuildsAnEmptyFilter : Obligations.ResetBuildsAnEmptyFilter := by
  intro s cfg ts ht
  refine ⟨_, step_reset ht, coerceBlocks_toNat cfg, exceedsCapacity_iff, fun i => rfl, rfl, rfl,
    cmdReady_resetInit cfg (popTurn s), rfl, rfl, ?_⟩
  simp [ht]

/-- R163: the initialisation keeps the build, the host and the counter of free values, and overwrites all else. -/
theorem resetInit_congr {s s' : State} (hconfig : s'.config = s.config) (hhost : s'.host = s.host)
    (hfree : s'.freeReads = s.freeReads) (cfg : Word32) : resetInit cfg s' = resetInit cfg s := by
  simp only [resetInit, hconfig, hhost, hfree]

/-- Settles O43: the turn that passes belongs to the host, and the initialisation overwrites what was in flight. -/
theorem resetForgetsWhatWasInFlight : Obligations.ResetForgetsWhatWasInFlight := by
  intro s s' cfg ts ht hconfig hhost hfree
  have popped : (popTurn s').host = (popTurn s).host := by rw [popTurn_host, popTurn_host, hhost]
  rw [step_reset ht, step_reset (hhost ▸ ht), resetInit_congr (s := popTurn s) (s' := popTurn s') hconfig popped hfree]

/-! ### The engine held in reset (R160) -/

/-- R160: the step that drives `rst_n` to 0. -/
theorem step_holdReset {s : State} {ts : List Turn} (ht : s.host.turns = .holdReset :: ts) :
    step s = .next (enterReset (popTurn s)) := by
  simp [step, ht]

/-- R160: `cmd_ready` during reset. -/
theorem cmdReady_of_held {s : State} (hr : s.rstN = false) : cmdReady s = false := by
  rw [← Bool.not_eq_true, cmdReady_iff, hr]
  simp

/-- R160: `rsp_valid` during reset. -/
theorem rspValid_of_held {s : State} (hr : s.rstN = false) : rspValid s = false := by
  rw [← Bool.not_eq_true, rspValid_iff, hr]
  simp

/-- Settles O44: held in reset, no port makes a transfer but the status port, whose datum is the host's. -/
theorem heldInResetNothingIsAcceptedOrPresented : Obligations.HeldInResetNothingIsAcceptedOrPresented := by
  refine ⟨fun s ts ht => by rw [step_holdReset ht, enterReset, popTurn_eq ht],
    fun s hr => ⟨cmdReady_of_held hr, rspValid_of_held hr⟩, fun s t hr hf h => ?_⟩
  rcases step_cases h with ⟨ht, rfl⟩ | ⟨ts, _, ⟨_, rfl⟩ | ⟨w, ready, _⟩⟩ | ⟨_, _, ⟨_, rfl⟩ | ⟨valid, _⟩⟩ |
    ⟨a, _, _, rfl⟩ | ⟨_, _, rfl⟩ | ⟨cfg, ts, ht, _⟩
  · rw [ht, List.tail_nil, ← ht]
  · rfl
  · simp [cmdReady_of_held hr] at ready
  · rfl
  · simp [rspValid_of_held hr] at valid
  · rw [readPort_eq]
    rfl
  · rw [enterReset, ← hr]
    rfl
  · simp [nextResetFree_of_reset ht] at hf

/-! ### The boot order (R169) -/

/-- R66: the status-read step out of reset. -/
theorem step_readStatus_of_rstN {s : State} {a : CsrAddr} {ts : List Turn} (ht : s.host.turns = .readStatus a :: ts)
    (hr : s.rstN = true) : step s = .next (recordRead a (csr s a) (popTurn s)) :=
  (step_readStatus ht).trans (exec_csrRead_of_rstN (s := popTurn s) hr a)

/-- R124: STATUS as a word. -/
theorem csr_status (s : State) : csr s 0x1#4 = if s.cfgErr = true then 1#32 else 0#32 := by
  apply BitVec.eq_of_toNat_eq
  rw [csr_status_toNat]
  split <;> rfl

/-- R169: the boot turns hold reset, release it with the count, and read STATUS and NUM_BLOCKS. -/
theorem reaches_bootTurns {s : State} {cfg : Word32} {ts : List Turn} (ht : s.host.turns = bootTurns cfg ++ ts) :
    ∃ t, Reaches s 4 t ∧ cmdReady t = cmdReady (resetInit cfg s) ∧ t.host.turns = ts ∧
      t.host.reads = s.host.reads ++ [(0x1#4, csr (resetInit cfg s) 0x1#4), (0x0#4, csr (resetInit cfg s) 0x0#4)] := by
  have boot : s = withTurns s (.holdReset :: .reset cfg :: .readStatus 0x1#4 :: .readStatus 0x0#4 :: ts) :=
    congrArg (withTurns s) ht
  rw [boot]
  exact ⟨_, reaches_succ.mpr ⟨_, step_holdReset rfl, reaches_succ.mpr ⟨_, step_reset rfl,
    reaches_succ.mpr ⟨_, step_readStatus_of_rstN rfl rfl, reaches_succ.mpr ⟨_, step_readStatus_of_rstN rfl rfl,
      reaches_zero.mpr rfl⟩⟩⟩⟩, rfl, rfl, List.append_assoc _ _ _⟩

/-- Settles O45: both words are those of the engine that the reset action leaves. -/
theorem bootReadsBackTheConfiguration : Obligations.BootReadsBackTheConfiguration := by
  intro s cfg ts ht
  obtain ⟨t, run, ready, turns, reads⟩ := reaches_bootTurns ht
  refine ⟨t, run, ready.trans (cmdReady_resetInit cfg s), turns, ?_⟩
  rw [reads, csr_status, csr_numBlocks]
  simp only [resetInit_cfgErr, resetInit_numBlocks, exceedsCapacity_iff, coerceBlocks_toNat]
  rfl

end Sys2Proof.Machine
end

section
/-! The host's sizing (70_reset_and_hazards.md R166, R167, D30): the block count of a number of keys, and the bits per key of a
false-positive rate. -/

namespace Sys2Proof.Machine

/-! ### The block count (R166, R167) -/

/-- R166: the block count is never 0. -/
theorem one_le_sizedBlocks (n b : Nat) : 1 ≤ sizedBlocks n b :=
  Nat.le_max_left 1 _

/-- R166: the blocks have room for every bit. -/
theorem mul_le_sizedBlocks (n b : Nat) : n * b ≤ 256 * sizedBlocks n b := by
  unfold sizedBlocks
  omega

/-- R166: one block less has no room for every bit. -/
theorem sizedBlocks_eq_one_or_lt (n b : Nat) : sizedBlocks n b = 1 ∨ 256 * (sizedBlocks n b - 1) < n * b := by
  unfold sizedBlocks
  omega

/-- R167: the block count is within a bound that is at least 1 exactly when the bits fit in that many blocks. -/
theorem sizedBlocks_le_iff {n b m : Nat} (hm : 1 ≤ m) : sizedBlocks n b ≤ m ↔ n * b ≤ 256 * m := by
  unfold sizedBlocks
  omega

/-- R167: a count of 32 bits is given as it is. -/
theorem sizing_of_le {n b : Nat} (h : sizedBlocks n b ≤ 2 ^ 32 - 1) :
    sizing n b = .ok (BitVec.ofNat 32 (sizedBlocks n b)) :=
  if_pos (by omega)

/-- R167: a larger count is refused. -/
theorem sizing_of_lt {n b : Nat} (h : 2 ^ 32 - 1 < sizedBlocks n b) : sizing n b = .error .sizingTooLarge :=
  if_neg (by omega)

/-- R167: what a sizing that is not refused gives. -/
theorem sizing_eq_ok {n b : Nat} {v : Word32} (h : sizing n b = .ok v) :
    sizedBlocks n b ≤ 2 ^ 32 - 1 ∧ v.toNat = sizedBlocks n b := by
  rcases le_or_gt (sizedBlocks n b) (2 ^ 32 - 1) with fits | large
  · rw [sizing_of_le fits] at h
    cases h
    exact ⟨fits, word32_toNat_ofNat (by omega)⟩
  · rw [sizing_of_lt large] at h
    cases h

/-- R167: a sizing is refused exactly when its count has more than 32 bits. -/
theorem exists_sizing_eq_ok_iff (n b : Nat) : (∃ v, sizing n b = .ok v) ↔ sizedBlocks n b ≤ 2 ^ 32 - 1 :=
  ⟨fun ⟨_, h⟩ => (sizing_eq_ok h).1, fun fits => ⟨_, sizing_of_le fits⟩⟩

/-- Settles O48: the sizing is a rounded-up quotient; for 10 bits per key its bound is that of 2^32-1 blocks. -/
theorem sizingIsTheCeilingAndNeverZero : Obligations.SizingIsTheCeilingAndNeverZero := by
  refine ⟨fun n b => ⟨one_le_sizedBlocks n b, mul_le_sizedBlocks n b, sizedBlocks_eq_one_or_lt n b⟩,
    exists_sizing_eq_ok_iff, fun n b v h => (sizing_eq_ok h).2, fun n b => sizing_of_lt, fun n => ?_⟩
  rw [exists_sizing_eq_ok_iff, sizedBlocks_le_iff (by decide)]
  omega

/-! ### The bits per key of a rate (R166, D30) -/

/-- R166: `-ln(p) / (ln 2)^2`, before it is rounded up. -/
noncomputable def exactBitsPerKey (p : ℝ) : ℝ := -Real.log p / Real.log 2 ^ 2

theorem exactBitsPerKey_pos {p : ℝ} (h0 : 0 < p) (h1 : p < 1) : 0 < exactBitsPerKey p := by
  have rate : Real.log p < 0 := Real.log_neg h0 h1
  have two : 0 < Real.log 2 := Real.log_pos (by norm_num)
  exact div_pos (neg_pos.mpr rate) (pow_pos two 2)

/-- R166: the bits per key of a rate inside (0, 1). -/
theorem isBitsPerKey_inside_iff {p : ℝ} (h0 : 0 < p) (h1 : p < 1) (b : Nat) :
    IsBitsPerKey (some p) b ↔ b = ⌈exactBitsPerKey p⌉₊ := by
  have ceiling : ((⌈exactBitsPerKey p⌉₊ : Nat) : ℤ) = ⌈exactBitsPerKey p⌉ :=
    Int.natCast_ceil_eq_ceil (exactBitsPerKey_pos h0 h1).le
  have rounded : ((b : ℤ) = ⌈exactBitsPerKey p⌉) ↔ b = ⌈exactBitsPerKey p⌉₊ := by rw [← ceiling, Nat.cast_inj]
  rw [← rounded]
  exact ⟨fun h => h.1 ⟨h0, h1⟩, fun h => ⟨fun _ => h, fun outside => absurd ⟨h0, h1⟩ outside⟩⟩

/-- R166: the bits per key of a rate outside (0, 1). -/
theorem isBitsPerKey_outside_iff {p : ℝ} (outside : ¬(0 < p ∧ p < 1)) (b : Nat) :
    IsBitsPerKey (some p) b ↔ b = 10 :=
  ⟨fun h => h.2 outside, fun h => ⟨fun inside => absurd inside outside, fun _ => h⟩⟩

/-- D30: the bits per key of a rate that is no real number. -/
theorem isBitsPerKey_none_iff (b : Nat) : IsBitsPerKey none b ↔ b = 10 := Iff.rfl

/-- R166, D30: a rate has one bits per key. -/
theorem existsUnique_isBitsPerKey (p : Option ℝ) : ∃! b : Nat, IsBitsPerKey p b := by
  cases p with
  | none => simp only [isBitsPerKey_none_iff, existsUnique_eq]
  | some p =>
    by_cases inside : 0 < p ∧ p < 1
    · simp only [isBitsPerKey_inside_iff inside.1 inside.2, existsUnique_eq]
    · simp only [isBitsPerKey_outside_iff inside, existsUnique_eq]

/-- Settles O49: inside (0, 1) the one value is the ceiling of a positive number, elsewhere it is 10. -/
theorem everyRateHasOneBitsPerKey : Obligations.EveryRateHasOneBitsPerKey := by
  refine ⟨existsUnique_isBitsPerKey, fun p b hb h0 h1 => ?_, fun p b hb h => ?_, rfl⟩
  · have positive := exactBitsPerKey_pos h0 h1
    rw [isBitsPerKey_inside_iff h0 h1] at hb
    subst hb
    exact ⟨Nat.ceil_pos.mpr positive, sub_lt_iff_lt_add.mpr (Nat.ceil_lt_add_one positive.le), Nat.le_ceil _⟩
  · refine (isBitsPerKey_outside_iff ?_ b).mp hb
    rintro ⟨h0, h1⟩
    exact h.elim h0.not_ge h1.not_ge

end Sys2Proof.Machine
end

section
/-! Runs of the engine and its host (70_reset_and_hazards.md R173, R175, R177, R178): what a run accounts for, the order in which
it performs its commands, and how far it has come. -/

namespace Sys2Proof.Machine

/-! ### The account of a run (R178) -/

/-- R178: the OPs of all commands of a run: of those answered, by the ROP of the responses taken and queued, and of those still
offered. -/
def opSequence (s : State) : List Nat :=
  (s.host.taken ++ s.rspq).map (fun r => r.toNat / 8) ++ s.host.stream.map (fun w => w.toNat / 2 ^ 64)

/-- `t` accounts for the same commands as `s`, in the same order, each with its response or still offered. -/
structure SameAccount (s t : State) : Prop where
  ops : opSequence t = opSequence s
  index : t.acceptIndex + t.host.stream.length = s.acceptIndex + s.host.stream.length

theorem SameAccount.refl (s : State) : SameAccount s s := ⟨rfl, rfl⟩

/-- R21, R47: between resets every step keeps the account. -/
theorem SameAccount.step {r s t : State} (a : SameAccount r s) (hf : s.nextResetFree = true) (h : step s = .next t) :
    SameAccount r t := by
  rcases oneResponsePerCommandInAcceptanceOrder s t hf h with ⟨hq, hi, hs⟩ | ⟨w, ts, x, _, hs, hk, hq, hx, hi⟩
  · refine ⟨?_, by rw [hi, hs, a.index]⟩
    rw [← a.ops, opSequence, opSequence, hq, hs]
  · refine ⟨?_, ?_⟩
    · rw [← a.ops, opSequence, opSequence, hk, hq, hs]
      simp [hx]
    · rw [← a.index, hi, hs, List.length_cons]
      omega

/-- R178: a run with no reset action keeps the account. -/
theorem sameAccount_of_reaches {s t : State} {k : Nat} (hf : s.resetFree k = true) (h : Reaches s k t) : SameAccount s t :=
  reaches_keeps_resetFree (P := SameAccount s) (fun _ _ a => a.step) (.refl s) hf h

/-- R178: every command offered has its response, or is still offered. -/
theorem SameAccount.responses {s t : State} (a : SameAccount s t) :
    (t.host.taken ++ t.rspq).length + t.host.stream.length = (s.host.taken ++ s.rspq).length + s.host.stream.length := by
  simpa [opSequence, Nat.add_assoc] using congrArg List.length a.ops

/-- R178: when a run has ended, nothing is offered and nothing is queued. -/
theorem runEnded_iff {s : State} : runEnded s = true ↔ s.host.stream = [] ∧ s.rspq = [] := by
  simp [runEnded]

/-! ### A run from a reset action (R178) -/

/-- R178: between resets the records of earlier runs stay as they are. -/
theorem step_earlier_of_resetFree {s t : State} (hf : s.nextResetFree = true) (h : step s = .next t) :
    t.host.earlier = s.host.earlier := by
  rcases step_cases h with ⟨_, rfl⟩ | ⟨_, _, ⟨_, rfl⟩ | ⟨w, _, _, he⟩⟩ | ⟨_, _, ⟨_, rfl⟩ | ⟨_, _, rfl⟩⟩ |
    ⟨a, _, _, rfl⟩ | ⟨_, _, rfl⟩ | ⟨cfg, ts, ht, _⟩
  · rfl
  · rfl
  · rw [(exec_command_ports he).2]
    rfl
  · rfl
  · rfl
  · rw [readPort_eq]
    rfl
  · rfl
  · simp [nextResetFree_of_reset ht] at hf

/-- R178: a run with no reset action leaves the records of earlier runs. -/
theorem reaches_earlier_of_resetFree {s t : State} {k : Nat} (hf : s.resetFree k = true) (h : Reaches s k t) :
    t.host.earlier = s.host.earlier :=
  reaches_keeps_resetFree (P := fun u => u.host.earlier = s.host.earlier)
    (fun _ _ kept free e => (step_earlier_of_resetFree free e).trans kept) rfl hf h

/-- Settles O51: after the reset action the account is that of the offered commands alone, and the run keeps it. -/
theorem runFromAResetObservesItsOwnResponses : Obligations.RunFromAResetObservesItsOwnResponses := by
  intro s u t cfg ts k ht hu hf run ended
  rw [step_reset ht] at hu
  cases hu
  obtain ⟨hstream, hrspq⟩ := runEnded_iff.mp ended
  obtain ⟨ops, index⟩ := sameAccount_of_reaches hf run
  refine ⟨?_, ?_, reaches_earlier_of_resetFree hf run, read_observedBlocks t, fun cell hcell => ?_⟩
  · simpa [observation, opSequence, hstream, hrspq] using ops
  · simpa [hstream] using index
  · exact of_decide_eq_true (List.mem_filter.mp hcell).2

/-! ### The commands of a run, performed in order (R47, R178) -/

/-- The engine with every response of the run in its queue and the ports at rest: what of a state no order of the steps
shows. -/
def atRest (s : State) : State :=
  { s with rspq := s.host.taken ++ s.rspq, acceptIndex := 0, rstN := true, host := HostAgent.idle, freeReads := 0 }

/-- The commands of a list, performed one after another. -/
def performAll : List CmdWord → State → Host.Outcome State Fault Refusal
  | [], s => .next s
  | w :: ws, s =>
    match exec (decode (.command w)) s with
    | .next t => performAll ws t
    | .fault f => .fault f
    | .refused r => .refused r

theorem performAll_cons {w : CmdWord} {s t : State} (h : exec (decode (.command w)) s = .next t) (ws : List CmdWord) :
    performAll (w :: ws) s = performAll ws t := by
  simp only [performAll, h]

/-- Everything INSERT can do when it answers a next state. -/
theorem execInsert_next {hash : Hash} {s t : State} (h : execInsert hash s = .next t) :
    (s.cfgErr = true ∧ t = respond opInsert .cfgErr false s) ∨
    (s.cfgErr = false ∧ accessible s (selectedBlock s hash) = true ∧ t = respond opInsert .ok false
      (storeBlock s (selectedBlock s hash)
        (Memory.read s.blk (selectedBlock s hash).toNat ||| laneMask s.config (loOf hash)))) := by
  cases hc : s.cfgErr with
  | true => rw [execInsert_cfgErr hc] at h; cases h; exact .inl ⟨rfl, rfl⟩
  | false =>
    cases ha : accessible s (selectedBlock s hash) with
    | true => rw [execInsert_ok hc ha] at h; cases h; exact .inr ⟨rfl, rfl, rfl⟩
    | false => rw [execInsert_fault hc ha] at h; cases h

theorem atRest_respond (op : OpField) (st : Status) (hit : Bool) (s : State) :
    atRest (respond op st hit s) = respond op st hit (atRest s) := by
  simp [atRest, respond]

/-- R47: a command does to the engine at rest what it does to the engine. -/
theorem exec_command_atRest {w : CmdWord} {s t : State} (h : exec (decode (.command w)) s = .next t) :
    exec (decode (.command w)) (atRest s) = .next (atRest t) := by
  rcases decode_command_cases w with ⟨_, hd⟩ | ⟨_, hd⟩ | ⟨_, hd⟩ | ⟨_, hd⟩
  · rw [hd] at h ⊢
    rcases execQuery_next h with ⟨hc, rfl⟩ | ⟨hc, ha, rfl⟩
    · rw [atRest_respond]; exact execQuery_cfgErr (s := atRest s) hc _
    · rw [atRest_respond]; exact execQuery_ok (s := atRest s) hc ha
  · rw [hd] at h ⊢
    rcases execInsert_next h with ⟨hc, rfl⟩ | ⟨hc, ha, rfl⟩
    · rw [atRest_respond]; exact execInsert_cfgErr (s := atRest s) hc _
    · rw [atRest_respond]; exact execInsert_ok (s := atRest s) hc ha
  · rw [hd] at h ⊢
    cases h
    simp only [exec, execReserved00, answerReserved_eq, atRest_respond]
    rfl
  · rw [hd] at h ⊢
    cases h
    simp only [exec, execReserved11, answerReserved_eq, atRest_respond]
    rfl

/-- R64: a response that is taken stays in the run's record. -/
theorem atRest_moveHead {s : State} (h : rspValid s = true) : atRest (moveHead s) = atRest s :=
  congrArg (fun q => { atRest s with rspq := q }) (taken_append_rspq_moveHead h)

/-- R12, R47: between resets a step performs the next command on the engine at rest, or leaves it. -/
theorem step_performAll {s t : State} (hf : s.nextResetFree = true) (h : step s = .next t) :
    performAll t.host.stream (atRest t) = performAll s.host.stream (atRest s) := by
  rcases step_cases h with ⟨_, rfl⟩ | ⟨_, _, ⟨_, rfl⟩ | ⟨w, _, hw, he⟩⟩ | ⟨_, _, ⟨_, rfl⟩ | ⟨hv, _, rfl⟩⟩ |
    ⟨a, _, _, rfl⟩ | ⟨_, _, rfl⟩ | ⟨cfg, ts, ht, _⟩
  · rfl
  · rfl
  · obtain ⟨ws, hs⟩ := List.head?_eq_some_iff.mp hw
    have performed : exec (decode (.command w)) (atRest s) = .next (atRest t) :=
      exec_command_atRest (s := consumeCommand (popTurn s)) he
    rw [hs, performAll_cons performed, (exec_command_ports he).2]
    simp [hs]
  · rfl
  · rw [atRest_moveHead (s := popTurn s) hv]
    rfl
  · rw [readPort_eq]
    rfl
  · rfl
  · simp [nextResetFree_of_reset ht] at hf

/-- R178: a run that has ended has performed the offered commands in their order. -/
theorem performAll_of_runEnded {s t : State} {k : Nat} (hf : s.resetFree k = true) (h : Reaches s k t)
    (ended : runEnded t = true) : performAll s.host.stream (atRest s) = .next (atRest t) := by
  have same : performAll t.host.stream (atRest t) = performAll s.host.stream (atRest s) :=
    reaches_keeps_resetFree (P := fun u => performAll u.host.stream (atRest u) = performAll s.host.stream (atRest s))
      (fun _ _ kept free e => (step_performAll free e).trans kept) rfl hf h
  rw [← same, (runEnded_iff.mp ended).1, performAll]

/-- R178: the observation of a run that has ended is read off the engine at rest. -/
theorem observation_eq_atRest {s : State} (ended : runEnded s = true) :
    observation s = ((atRest s).rspq, observedBlocks (atRest s)) := by
  simp [observation, observedBlocks, atRest, (runEnded_iff.mp ended).2]

/-- Settles O50: both runs perform the same commands on the same engine at rest. -/
theorem observationDoesNotDependOnTheInterleaving : Obligations.ObservationDoesNotDependOnTheInterleaving := by
  intro s s' t t' k k' hs' hf hf' run run' ended ended'
  have performed := performAll_of_runEnded hf run ended
  have performed' : performAll s.host.stream (atRest s) = .next (atRest t') := by
    have := performAll_of_runEnded hf' run' ended'
    rwa [hs'] at this
  have same : atRest t = atRest t' := Host.Outcome.next.inj (performed.symm.trans performed')
  rw [observation_eq_atRest ended, observation_eq_atRest ended', same]

/-! ### How far a run has come (R60, R64, R173) -/

/-- The transfers that the accept step and the take step still have to make. -/
def pendingSteps (s : State) : Nat := s.rspq.length + 2 * s.host.stream.length

theorem runEnded_of_pendingSteps {s : State} (h : pendingSteps s = 0) : runEnded s = true := by
  unfold pendingSteps at h
  exact runEnded_iff.mpr ⟨List.length_eq_zero_iff.mp (by omega), List.length_eq_zero_iff.mp (by omega)⟩

/-- R100, R105, R120: a command leaves `rst_n`. -/
theorem exec_command_rstN {w : CmdWord} {s t : State} (h : exec (decode (.command w)) s = .next t) : t.rstN = s.rstN := by
  rcases exec_command_cases h with ⟨op, st, hit, rfl⟩ | ⟨hash, _, _, _, rfl⟩
  · rfl
  · rfl

/-- R60, R47: the accept step, when enabled, takes one command off the stream and puts one response into RSPQ. -/
theorem step_accept_lengths {s t : State} {ts : List Turn} (ht : s.host.turns = .accept :: ts)
    (enabled : acceptEnabled s = true) (h : step s = .next t) :
    t.rstN = s.rstN ∧ s.host.stream.length = t.host.stream.length + 1 ∧ t.rspq.length = s.rspq.length + 1 := by
  obtain ⟨ready, offered⟩ := acceptEnabled_iff.mp enabled
  obtain ⟨w, ws, hs⟩ := List.exists_cons_of_ne_nil offered
  rw [step_accept ht hs ready] at h
  obtain ⟨st, hit, hq, _⟩ := exec_command_answersLegally h
  refine ⟨exec_command_rstN (s := consumeCommand (popTurn s)) h, ?_, ?_⟩
  · simp [(exec_command_ports h).2, hs]
  · simp [hq]

/-- R64: the take step, when enabled, moves the head response to the host. -/
theorem step_take_valid {s t : State} {ts : List Turn} (ht : s.host.turns = .take :: ts) (valid : rspValid s = true)
    (h : step s = .next t) : t = moveHead (popTurn s) := by
  rw [step_take ht] at h
  rcases takeResponse_next h with ⟨idle, _⟩ | ⟨_, _, rfl⟩
  · simp [valid] at idle
  · rfl

/-- R64: the take step, when enabled, leaves RSPQ one response shorter and the stream as it is. -/
theorem step_take_lengths {s t : State} {ts : List Turn} (ht : s.host.turns = .take :: ts) (valid : rspValid s = true)
    (h : step s = .next t) :
    t.rstN = s.rstN ∧ t.host.stream.length = s.host.stream.length ∧ s.rspq.length = t.rspq.length + 1 := by
  rw [step_take_valid ht valid h]
  refine ⟨rfl, rfl, ?_⟩
  obtain ⟨r, rs, hq⟩ := List.exists_cons_of_ne_nil (rspValid_iff.mp valid).2
  simp [hq]

theorem step_accept_pendingSteps {s t : State} {ts : List Turn} (ht : s.host.turns = .accept :: ts)
    (enabled : acceptEnabled s = true) (h : step s = .next t) : pendingSteps s = pendingSteps t + 1 := by
  obtain ⟨_, hstream, hrspq⟩ := step_accept_lengths ht enabled h
  unfold pendingSteps
  omega

theorem step_take_pendingSteps {s t : State} {ts : List Turn} (ht : s.host.turns = .take :: ts)
    (valid : rspValid s = true) (h : step s = .next t) : pendingSteps s = pendingSteps t + 1 := by
  obtain ⟨_, hstream, hrspq⟩ := step_take_lengths ht valid h
  unfold pendingSteps
  omega

/-! ### A host that keeps taking (R173, R178) -/

theorem drainTurns_succ_waiting (waiting offered : Nat) :
    drainTurns (waiting + 1) offered = .take :: drainTurns waiting offered := by
  simp [drainTurns, List.replicate_succ]

theorem drainTurns_zero_succ (offered : Nat) : drainTurns 0 (offered + 1) = .accept :: drainTurns 1 offered := by
  simp [drainTurns, List.replicate_succ]

/-- R173: the host's turns to come are those that take every response, of a state of the invariant out of reset. -/
structure Draining (s : State) : Prop where
  inv : s.Inv
  rstN : s.rstN = true
  turns : s.host.turns = drainTurns s.rspq.length s.host.stream.length

/-- R60, R173: with RSPQ empty an offered command is accepted, whatever the depth of RSPQ. -/
theorem acceptEnabled_of_rspq_nil {s : State} (hr : s.rstN = true) (hq : s.rspq = []) (offered : s.host.stream ≠ []) :
    acceptEnabled s = true :=
  acceptEnabled_iff.mpr ⟨cmdReady_iff.mpr ⟨hr, by rw [hq]; exact s.config.rspDepth_pos⟩, offered⟩

/-- R173: of a draining host every step until the end of the run is a transfer, after which it is draining still. -/
theorem Draining.step {s : State} (d : Draining s) (more : pendingSteps s ≠ 0) :
    ∃ t, step s = .next t ∧ s.nextResetFree = true ∧ Draining t ∧ pendingSteps s = pendingSteps t + 1 := by
  obtain ⟨t, h⟩ := d.inv.step_completes
  have inv : t.Inv := everyStepKeepsTheInvariant s t d.inv h
  have turns := step_turns h
  refine ⟨t, h, ?_⟩
  cases hq : s.rspq with
  | cons r rs =>
    have ht : s.host.turns = .take :: drainTurns rs.length s.host.stream.length := by
      rw [d.turns, hq, List.length_cons, drainTurns_succ_waiting]
    have valid : rspValid s = true := rspValid_iff.mpr ⟨d.rstN, by simp [hq]⟩
    obtain ⟨hr, hstream, hrspq⟩ := step_take_lengths ht valid h
    have queue : t.rspq.length = rs.length := by simpa [hq] using hrspq.symm
    refine ⟨by simp [State.nextResetFree, ht, Turn.isResetFree], ⟨inv, hr.trans d.rstN, ?_⟩,
      step_take_pendingSteps ht valid h⟩
    rw [turns, ht, List.tail_cons, hstream, queue]
  | nil =>
    cases hw : s.host.stream with
    | nil => simp [pendingSteps, hq, hw] at more
    | cons w ws =>
      have ht : s.host.turns = .accept :: drainTurns 1 ws.length := by
        rw [d.turns, hq, hw, List.length_nil, List.length_cons, drainTurns_zero_succ]
      have enabled := acceptEnabled_of_rspq_nil d.rstN hq (by simp [hw])
      obtain ⟨hr, hstream, hrspq⟩ := step_accept_lengths ht enabled h
      have queue : t.rspq.length = 1 := by simpa [hq] using hrspq
      have offered : t.host.stream.length = ws.length := by simpa [hw] using hstream.symm
      refine ⟨by simp [State.nextResetFree, ht, Turn.isResetFree], ⟨inv, hr.trans d.rstN, ?_⟩,
        step_accept_pendingSteps ht enabled h⟩
      rw [turns, ht, List.tail_cons, offered, queue]

/-- R173, R178: a draining host's run ends after as many steps as there are transfers to make. -/
theorem Draining.reaches_end {r s : State} {k : Nat} (d : Draining s) (hk : pendingSteps s = k) (a : SameAccount r s) :
    ∃ t, Reaches s k t ∧ Draining t ∧ pendingSteps t = 0 ∧ SameAccount r t := by
  induction k generalizing s with
  | zero => exact ⟨s, reaches_zero.mpr rfl, d, hk, a⟩
  | succ k ih =>
    obtain ⟨u, hu, free, du, fewer⟩ := d.step (by omega)
    obtain ⟨t, ht, rest⟩ := ih du (by omega) (a.step free hu)
    exact ⟨t, reaches_succ.mpr ⟨u, hu, ht⟩, rest⟩

/-- Settles O46: the drain turns make a transfer in every step, and the account of the run gives the counts. -/
theorem drainingHostHasEveryCommandAnswered : Obligations.DrainingHostHasEveryCommandAnswered := by
  intro s hs hr ht
  obtain ⟨t, run, d, none, a⟩ := Draining.reaches_end ⟨hs, hr, ht⟩ rfl (.refl s)
  have ended := runEnded_of_pendingSteps none
  obtain ⟨hstream, hrspq⟩ := runEnded_iff.mp ended
  have index := a.index
  have responses := a.responses
  simp only [hstream, hrspq, List.append_nil, List.length_nil, Nat.add_zero, List.length_append] at index responses
  refine ⟨t, run, ended, ?_, index, responses⟩
  rw [d.turns, hstream, hrspq]
  rfl

/-! ### Endless runs of port turns (R175, R177) -/

/-- The ports show the same commands and responses and are as ready. -/
structure SamePorts (s t : State) : Prop where
  stream : t.host.stream = s.host.stream
  rspq : t.rspq = s.rspq
  config : t.config = s.config
  rstN : t.rstN = s.rstN

theorem SamePorts.trans {s t u : State} (h : SamePorts s t) (k : SamePorts t u) : SamePorts s u :=
  ⟨k.stream.trans h.stream, k.rspq.trans h.rspq, k.config.trans h.config, k.rstN.trans h.rstN⟩

theorem SamePorts.pendingSteps {s t : State} (h : SamePorts s t) : pendingSteps t = pendingSteps s := by
  rw [Machine.pendingSteps, Machine.pendingSteps, h.stream, h.rspq]

theorem SamePorts.acceptEnabled {s t : State} (h : SamePorts s t) : acceptEnabled t = acceptEnabled s := by
  simp only [Machine.acceptEnabled, cmdReady, cmdValid, h.stream, h.rspq, h.config, h.rstN]

theorem SamePorts.rspValid {s t : State} (h : SamePorts s t) : rspValid t = rspValid s := by
  simp only [Machine.rspValid, h.rspq, h.rstN]

theorem SamePorts.takeRequired {s t : State} (h : SamePorts s t) : takeRequired t = takeRequired s := by
  simp only [Machine.takeRequired, cmdValid, h.rspValid, h.stream]

/-- R12: a port turn whose step is not enabled leaves the ports, as a status read does, and any other makes a transfer. -/
theorem portStep_cases {s t : State} {o : Turn} (ho : o.atPort = true) (h : step (withTurns s [o]) = .next t) :
    SamePorts s t ∨ t.rstN = s.rstN ∧ pendingSteps s = pendingSteps t + 1 := by
  cases o with
  | accept =>
    cases enabled : acceptEnabled s with
    | false =>
      rw [step_accept_of_not_enabled (s := withTurns s [.accept]) rfl enabled] at h
      cases h
      exact .inl ⟨rfl, rfl, rfl, rfl⟩
    | true =>
      exact .inr ⟨(step_accept_lengths (s := withTurns s [.accept]) rfl enabled h).1,
        step_accept_pendingSteps (s := withTurns s [.accept]) rfl enabled h⟩
  | take =>
    cases valid : rspValid s with
    | false =>
      rw [step_take rfl] at h
      rcases takeResponse_next h with ⟨_, rfl⟩ | ⟨taken, _⟩
      · exact .inl ⟨rfl, rfl, rfl, rfl⟩
      · simp [valid] at taken
    | true =>
      exact .inr ⟨(step_take_lengths (s := withTurns s [.take]) rfl valid h).1,
        step_take_pendingSteps (s := withTurns s [.take]) rfl valid h⟩
  | readStatus a =>
    rw [step_readStatus rfl] at h
    cases h
    rw [readPort_eq]
    exact .inl ⟨rfl, rfl, rfl, rfl⟩
  | holdReset => cases ho
  | reset cfg => cases ho

/-- A port turn is no reset action. -/
theorem Turn.isResetFree_of_atPort {o : Turn} (ho : o.atPort = true) : o.isResetFree = true := by
  cases o with
  | reset cfg => cases ho
  | _ => rfl

section
variable {run : Nat → State} {order : Nat → Turn}

/-- R178: an endless run of port turns keeps the account. -/
theorem EndlessRun.sameAccount (hrun : EndlessRun run order) (hport : ∀ n, (order n).atPort = true) :
    ∀ n, SameAccount (run 0) (run n)
  | 0 => .refl _
  | n + 1 => by
    have soFar : SameAccount (run 0) (withTurns (run n) [order n]) :=
      ⟨(hrun.sameAccount hport n).ops, (hrun.sameAccount hport n).index⟩
    have free : (withTurns (run n) [order n]).nextResetFree = true := Turn.isResetFree_of_atPort (hport n)
    exact soFar.step free (hrun n)

/-- R175: port turns leave the engine out of reset. -/
theorem EndlessRun.rstN (hrun : EndlessRun run order) (hport : ∀ n, (order n).atPort = true) (h0 : (run 0).rstN = true) :
    ∀ n, (run n).rstN = true
  | 0 => h0
  | n + 1 => by
    have before := hrun.rstN hport h0 n
    rcases portStep_cases (hport n) (hrun n) with same | ⟨same, _⟩
    · rw [same.rstN, before]
    · rw [same, before]

/-- A run that comes no further from a time on shows the same at its ports from then on. -/
theorem EndlessRun.samePorts_of_stalled (hrun : EndlessRun run order) (hport : ∀ n, (order n).atPort = true) {n : Nat}
    (stalled : ∀ m, n ≤ m → pendingSteps (run n) ≤ pendingSteps (run m)) : ∀ m, n ≤ m → SamePorts (run n) (run m) := by
  intro m hm
  induction m, hm using Nat.le_induction with
  | base => exact ⟨rfl, rfl, rfl, rfl⟩
  | succ m hm ih =>
    rcases portStep_cases (hport m) (hrun m) with same | ⟨_, further⟩
    · exact ih.trans same
    · have := stalled (m + 1) (by omega)
      have := ih.pendingSteps
      omega

/-- R177: a step that is enabled, and that is taken if it stays enabled, brings the run further: the run cannot stall, since in
a stalled run the step stays enabled, and taking it makes a transfer. -/
theorem EndlessRun.exists_further (hrun : EndlessRun run order) (hport : ∀ n, (order n).atPort = true)
    {enabled : State → Bool} {o : Turn} (seen : ∀ s t, SamePorts s t → enabled t = enabled s)
    (further : ∀ s t, enabled s = true → step (withTurns s [o]) = .next t → pendingSteps s = pendingSteps t + 1) {n : Nat}
    (fair : (∀ m, n ≤ m → enabled (run m) = true) → ∃ m, n ≤ m ∧ order m = o) (now : enabled (run n) = true) :
    ∃ m, pendingSteps (run m) < pendingSteps (run n) := by
  by_contra! stalled
  have same := hrun.samePorts_of_stalled hport fun m _ => stalled m
  have always : ∀ m, n ≤ m → enabled (run m) = true := fun m hm => (seen _ _ (same m hm)).trans now
  obtain ⟨m, hm, taken⟩ := fair always
  have made := further _ _ (always m hm) (taken ▸ hrun m)
  have := (same m hm).pendingSteps
  have := stalled (m + 1)
  omega

/-- R173, R177: while a command is offered, a weakly fair run comes further: RSPQ has room and the engine accepts, or it has
none and the host takes. -/
theorem EndlessRun.exists_further_of_offered (hrun : EndlessRun run order) (hport : ∀ n, (order n).atPort = true)
    (fair : WeaklyFair run order) {n : Nat} (hr : (run n).rstN = true) (offered : (run n).host.stream ≠ []) :
    ∃ m, pendingSteps (run m) < pendingSteps (run n) := by
  by_cases room : (run n).rspq.length < (run n).config.rspDepth
  · have enabled : acceptEnabled (run n) = true := acceptEnabled_iff.mpr ⟨cmdReady_iff.mpr ⟨hr, room⟩, offered⟩
    exact hrun.exists_further hport (fun _ _ => SamePorts.acceptEnabled)
      (fun s _ en h => step_accept_pendingSteps (s := withTurns s [.accept]) rfl en h) (fair.accept_taken n) enabled
  · have full : (run n).rspq ≠ [] := by
      have depth := (run n).config.rspDepth_pos
      exact List.ne_nil_of_length_pos (by omega)
    have required : takeRequired (run n) = true := takeRequired_iff.mpr ⟨rspValid_iff.mpr ⟨hr, full⟩, offered⟩
    exact hrun.exists_further hport (fun _ _ => SamePorts.takeRequired)
      (fun s _ en h => step_take_pendingSteps (s := withTurns s [.take]) rfl (takeRequired_iff.mp en).1 h)
      (fair.take_taken n) required

/-- R178: while a response is queued, the run of a host that takes every response comes further. -/
theorem EndlessRun.exists_further_of_queued (hrun : EndlessRun run order) (hport : ∀ n, (order n).atPort = true)
    (taking : TakesEveryResponse run order) {n : Nat} (hr : (run n).rstN = true) (queued : (run n).rspq ≠ []) :
    ∃ m, pendingSteps (run m) < pendingSteps (run n) :=
  hrun.exists_further hport (fun _ _ => SamePorts.rspValid)
    (fun s _ en h => step_take_pendingSteps (s := withTurns s [.take]) rfl en h) (taking n) (rspValid_iff.mpr ⟨hr, queued⟩)

/-- A goal is reached in a run that comes further whenever it is not there. -/
theorem exists_of_further {goal : State → Prop}
    (further : ∀ n, ¬ goal (run n) → ∃ m, pendingSteps (run m) < pendingSteps (run n)) : ∃ n, goal (run n) := by
  by_contra! never
  obtain ⟨m, hm⟩ := further (Function.argmin fun n => pendingSteps (run n)) (never _)
  exact Function.not_lt_argmin (fun n => pendingSteps (run n)) m hm

end

/-- Settles O52: a weakly fair run comes further while a command is offered, and, where the host takes every response, until
the run has ended; the account of the run gives the counts. -/
theorem everyFairRunAnswersEveryCommand : Obligations.EveryFairRunAnswersEveryCommand := by
  intro run order hrun _ h0 hport fair
  have out := hrun.rstN hport h0
  have account := hrun.sameAccount hport
  refine ⟨?_, fun taking => ?_⟩
  · obtain ⟨n, done⟩ := exists_of_further (run := run) (goal := fun s => s.host.stream = []) fun n offered =>
      hrun.exists_further_of_offered hport fair (out n) offered
    exact ⟨n, done, by simpa [done] using (account n).index, by simpa [done] using (account n).responses⟩
  · obtain ⟨n, hstream, hrspq⟩ := exists_of_further (run := run) (goal := fun s => s.host.stream = [] ∧ s.rspq = [])
      fun n notEnded => by
        by_cases offered : (run n).host.stream = []
        · exact hrun.exists_further_of_queued hport taking (out n) fun queued => notEnded ⟨offered, queued⟩
        · exact hrun.exists_further_of_offered hport fair (out n) offered
    exact ⟨n, runEnded_iff.mpr ⟨hstream, hrspq⟩, by simpa [hstream, hrspq] using (account n).responses⟩

end Sys2Proof.Machine
end
